-- ==== Sys2Proof/Word.lean ====
section
/-! DEFINITION. The bit-vector type of the spec's notation (`00_scope.md` section 5). -/

namespace Sys2Proof

/-- A bit-vector of width `n`: bits `v[n-1]` (most significant) down to `v[0]` (`00_scope.md` section 5, R40).
The block is built for any bit-width `N`, so widths vary with the instance. -/
abbrev Bits (n : Nat) := BitVec n

end Sys2Proof
end

