-- ==== Sys2Proof/Config.lean ====
section
/-! DEFINITION. The parameters of an instance of the block (`00_scope.md` R3 to R6) and the free values. -/

namespace Sys2Proof

/-- The parameters an instance is built with. They never change while the machine runs (R3, R4, R5, R122). -/
structure Config where
  /-- `N`, the bit-width: any integer; `N <= 0` is an error of every command but NOP (R3). -/
  n : Int
  /-- `W`, the width of an operand field of a command (R4). -/
  w : Nat
  /-- `TRACE_EN`, whether the trace is emitted (R5). -/
  traceEn : Bool
deriving DecidableEq, Repr

/-- How many bits a register of `N` bits has: none when `N <= 0` (R49, U4; DEDUCED, safe, log entry 12). -/
abbrev Config.width (c : Config) : Nat := c.n.toNat

/-- `CW`, the number of binary digits of `N`; 1 when `N <= 0` (R6, D6). -/
def Config.cntWidth (c : Config) : Nat := Nat.log2 c.width + 1

/-- The reference instance: `N = 6`, `W = 12`, no trace (R3, R4, R5). -/
def Config.reference : Config := { n := 6, w := 12, traceEn := false }

/-- FREE VALUES: the value, of any width, that the `draw`-th unspecified register write leaves (R22, R120: "unspecified").
It has no body, so no proof can see what it is (DESIGN CHOICE, safe, log entry 3). -/
opaque Config.freeBits (draw width : Nat) : Bits width

end Sys2Proof
end

