-- ==== Sys2Proof/Machine/State.lean ====
section
/-! DEFINITION. The state of the machine (`10_state.md`), what can stop a step, and the state after reset. -/

namespace Sys2Proof.Machine

/-- `PHASE` (R16). The code 3 "is never produced" and has no meaning, so the type has three values (R51, U13; log entry 10). -/
inductive Phase where
  /-- 0: no operation has completed since reset. -/
  | idle
  /-- 1: a Multiply has been loaded and has not finished. -/
  | run
  /-- 2: an operation has completed and its response is in `RES_*`. -/
  | done
deriving DecidableEq, Repr

/-- The value of `RES_ERR` (R50): all four 2-bit codes have a name. -/
inductive Err where
  /-- 0, `NONE`. -/
  | noError
  /-- 1, `RANGE`, BINMUL's RangeError. -/
  | range
  /-- 2, `FORMAT`, BINMUL's FormatError. -/
  | format
  /-- 3, `CONFIG`, BINMUL's ConfigurationError. -/
  | config
deriving DecidableEq, Repr

/-- What the host drives on the input ports in one step (R19). -/
structure HostInput (w : Nat) where
  rst : Bool
  cmdValid : Bool
  cmdOp : Bits 2
  cmdA : Bits w
  cmdB : Bits w
deriving DecidableEq, Repr

/-- Whether a trace event shows the state before or after the shift (R97). -/
inductive Tag where
  | pre
  | post
deriving DecidableEq, Repr

/-- A trace event `(i, tag, P, Q, QM1)` (R97). -/
structure TraceEvent (n : Nat) where
  i : Int
  tag : Tag
  p : Bits n
  q : Bits n
  qm1 : Bool
deriving DecidableEq, Repr

/-- The registers of an instance with parameters `c` (`10_state.md`), what the host will present to it, and the trace it has
emitted. `host` and `draws` are the model's own (log entries 2 and 3); `trace` is the output stream (log entry 5); every other
field is a register. -/
structure Block (c : Config) where
  /-- `P`, the accumulator (R10). -/
  p : Bits c.width
  /-- `Q`, the multiplier register (R11). -/
  q : Bits c.width
  /-- `QM1`, the guard bit (R12). -/
  qm1 : Bool
  /-- `M`, the multiplicand register (R13). -/
  m : Bits c.width
  /-- `CNT`, the iteration counter (R15). -/
  cnt : Bits c.cntWidth
  /-- `PHASE` (R16). -/
  phase : Phase
  /-- `RES_ERR` (R17). -/
  resErr : Err
  /-- `RES_VAL` (R17). -/
  resVal : Bits (c.width + c.width)
  /-- `RES_BITS` (R17). -/
  resBits : Bits (c.width + c.width)
  /-- What the host presents, one entry a step, the next step's first; past its end the host presents nothing. -/
  host : List (HostInput c.w)
  /-- The trace events emitted so far, oldest first (R97). -/
  trace : List (TraceEvent c.width)
  /-- How many free values have been used. -/
  draws : Nat
deriving DecidableEq, Repr

/-- The machine: the parameters `N`, `W`, `TRACE_EN` of the instance (R3 to R5; log entry 1), and the block built with them. -/
structure State where
  cfg : Config
  block : Block cfg
deriving DecidableEq, Repr

/-- What stops the machine. NOTHING: the spec's three errors are responses, after which the machine goes on (R106, R108), so
no step faults and the type has no constructor (safe: no behaviour is left out by it). -/
inductive Fault where
deriving DecidableEq, Repr

/-- Why an instruction has no meaning. -/
inductive Refusal where
  /-- Raised by an arm of `exec` whose instruction has no meaning yet; safe, since the machine stops there. No arm does. -/
  | notModelled (mnemonic : String)
deriving DecidableEq, Repr

/-- A block right after RESET (R22): IDLE, a zero response. The spec gives `P`, `Q`, `QM1`, `M`, `CNT` no value; they are 0
HERE (DESIGN CHOICE, unsafe, log entry 4). `host`, `trace`, `draws` start empty (log entries 2, 3, 5). -/
def Block.reset (c : Config) : Block c where
  p := 0
  q := 0
  qm1 := false
  m := 0
  cnt := 0
  phase := .idle
  resErr := .noError
  resVal := 0
  resBits := 0
  host := []
  trace := []
  draws := 0

/-- The reference instance right after RESET (R3 to R5, R22). -/
def State.reset : State := { cfg := Config.reference, block := Block.reset Config.reference }

end Sys2Proof.Machine
end

