-- ==== Sys2Proof/Machine/Operands.lean ====
section
/-! DEFINITION. The notation of `00_scope.md` section 5 (`U`, `S`, `wrap`, `inRange`, extensions), and the views of the
datapath registers that the rules name: the combined register, its shift, the product (`10_state.md` R14). -/

namespace Sys2Proof

/-- `U(v)`, the unsigned value. -/
abbrev U {n : Nat} (v : Bits n) : Nat := v.toNat

/-- `S(v)`, the signed (two's-complement) value (R40). -/
abbrev S {n : Nat} (v : Bits n) : Int := v.toInt

/-- `wrap_n(z)`, the `n`-bit vector congruent to `z` modulo `2^n`. -/
abbrev wrap (n : Nat) (z : Int) : Bits n := BitVec.ofInt n z

/-- `inrange_n(z)`, for `n >= 1`. -/
abbrev inRange (n : Nat) (z : Int) : Prop := -2 ^ (n - 1) ≤ z ∧ z ≤ 2 ^ (n - 1) - 1

/-- `zext_k(v)`: zeros on the left. -/
abbrev zext {n : Nat} (k : Nat) (v : Bits n) : Bits k := v.setWidth k

/-- The low `k` bits `v[k-1:0]`. -/
abbrev lowBits {n : Nat} (k : Nat) (v : Bits n) : Bits k := v.extractLsb' 0 k

/-- The combined register `C = P ‖ Q ‖ QM1`, `2N+1` bits (R14). -/
def combined {n : Nat} (p q : Bits n) (qm1 : Bool) : Bits (n + n + 1) := p ++ q ++ BitVec.ofBool qm1

/-- `C' = C[2N] ‖ C[2N:1]`: right by one place, the sign bit copied in at the top (R76). -/
def shiftCombined {n : Nat} (c : Bits (n + n + 1)) : Bits (n + n + 1) := c.sshiftRight 1

/-- `C[2N:N+1]`, the part of the combined register that is `P` (R14). -/
def combinedP {n : Nat} (c : Bits (n + n + 1)) : Bits n := c.extractLsb' (n + 1) n

/-- `C[N:1]`, the part that is `Q` (R14). -/
def combinedQ {n : Nat} (c : Bits (n + n + 1)) : Bits n := c.extractLsb' 1 n

/-- `C[0]`, the part that is `QM1` (R14). -/
def combinedQM1 {n : Nat} (c : Bits (n + n + 1)) : Bool := c.getLsbD 0

/-- The product view `P ‖ Q`, `2N` bits (R14). -/
def product {n : Nat} (p q : Bits n) : Bits (n + n) := p ++ q

end Sys2Proof
end

