-- ==== Sys2Proof/Syntax.lean ====
section
/-! DEFINITION. The instructions: one constructor per row of the opcode table. -/

namespace Sys2Proof

/-- Everything the opcode table lists: the commands a host presents (CMD), the actions a Booth pair selects (PAIR) and the
steps the sequencer selects (SEQ). -/
inductive Instr where
  /-- CMD 00, `NOP` (R92): no operand. -/
  | nop
  /-- CMD 01, `ENC v` (R64): encode the integer `value`. -/
  | enc (value : Int)
  /-- CMD 10, `DEC "s"` (R65): decode the bit-string `bits` of `len` bits; "input length defines N implicitly" (R61). -/
  | dec (len : Nat) (bits : Bits len)
  /-- CMD 11, `MUL x, y` (R71): load a Multiply. -/
  | mul (multiplicand multiplier : Int)
  /-- PAIR 00, `HOLD` (R75). -/
  | holdZeros
  /-- PAIR 01, `ADD` (R73). -/
  | add
  /-- PAIR 10, `SUB` (R74). -/
  | sub
  /-- PAIR 11, `HOLD`, its second encoding (R75). -/
  | holdOnes
  /-- SEQ `RESET` (R120). -/
  | reset
  /-- SEQ `ITER`, one iteration of a Multiply (R72). -/
  | iter
  /-- SEQ `ASR`, the second sub-step of every ITER (R76). -/
  | asr
  /-- SEQ `FINISH` (R77). -/
  | finish
  /-- SEQ `ACCEPT` of the presented command (R91). -/
  | accept
deriving DecidableEq, Repr

end Sys2Proof
end

