-- ==== Sys2Proof/WellFormed.lean ====
section
/-! DEFINITION. Which parameters an instance may have, and which instructions a command word of an instance can carry. -/

namespace Sys2Proof

/-- `W >= N` (R4). -/
abbrev Config.WellFormed (c : Config) : Prop := c.n ≤ c.w

/-- The integer can be written in a `w`-bit operand field: "An operand that does not fit `W` bits cannot be written in a
word" (R52). A field of no bits reads as 0. -/
def fitsField (w : Nat) (z : Int) : Bool := if w = 0 then decide (z = 0) else decide (inRange w z)

/-- The instruction can be presented to an instance with parameters `c`: integer operands fit their fields (R44) and DEC's
string has exactly `N` characters (R45, R52). -/
def Instr.wellFormed (c : Config) : Instr → Bool
  | .nop => true
  | .enc value => fitsField c.w value
  | .dec len _ => decide (len = c.width)
  | .mul x y => fitsField c.w x && fitsField c.w y
  | .holdZeros => true
  | .add => true
  | .sub => true
  | .holdOnes => true
  | .reset => true
  | .iter => true
  | .asr => true
  | .finish => true
  | .accept => true

end Sys2Proof
end

