-- ==== Sys2Proof/Decode.lean ====
section
/-! DEFINITION. The three decoders (command word, Booth pair, step selection), the encoder, and the reading of a word of the
opcode table (`30_encoding.md` R42 to R48, `42_sequencer_and_trace.md` R90, `opcode_table.json`). -/

namespace Sys2Proof

open Machine (Phase)

/-! ### The command word -/

/-- `cmd_op ‖ cmd_a ‖ cmd_b`, `2 + 2W` bits (R42). -/
def commandWord {w : Nat} (op : Bits 2) (a b : Bits w) : Bits (2 + w + w) := op ++ a ++ b

/-- Bits `[2W+1 : 2W]` of the word (R42). -/
def commandOp {w : Nat} (word : Bits (2 + w + w)) : Bits 2 := word.extractLsb' (w + w) 2

/-- Bits `[2W-1 : W]` of the word (R42). -/
def commandA {w : Nat} (word : Bits (2 + w + w)) : Bits w := word.extractLsb' w w

/-- Bits `[W-1 : 0]` of the word (R42). -/
def commandB {w : Nat} (word : Bits (2 + w + w)) : Bits w := word.extractLsb' 0 w

/-- The operation code picks one of four and hands it its operands (R43 to R46): the integers `S(cmd_a)`, `S(cmd_b)`, or the
`N`-bit string `cmd_a[N-1:0]`. Bits an operation does not use are not looked at. -/
def onCommand {α : Type} (c : Config) (word : Bits (2 + c.w + c.w)) (nop : α) (enc : Int → α)
    (dec : (len : Nat) → Bits len → α) (mul : Int → Int → α) : α :=
  if commandOp word = 0 then nop
  else if commandOp word = 1 then enc (S (commandA word))
  else if commandOp word = 2 then dec c.width (lowBits c.width (commandA word))
  else mul (S (commandA word)) (S (commandB word))

/-- The command a word carries: total, since all four codes are assigned (R43, R47). -/
def decodeCommand (c : Config) (word : Bits (2 + c.w + c.w)) : Instr := onCommand c word .nop .enc .dec .mul

/-! ### The Booth pair -/

/-- The pair `Q[0] QM1` picks the iteration's action (R48). -/
def onPair {α : Type} (q0 qm1 : Bool) (holdZeros add sub holdOnes : α) : α :=
  match q0, qm1 with
  | false, false => holdZeros
  | false, true => add
  | true, false => sub
  | true, true => holdOnes

/-- The action of a pair written as two bits, `Q[0]` first (R48). -/
def decodePair (pair : Bits 2) : Instr := onPair (pair.getLsbD 1) (pair.getLsbD 0) .holdZeros .add .sub .holdOnes

/-! ### The step selection -/

/-- The table of R90, in its priority; `none` is its last row, "no step". -/
def selectStep (rst : Bool) (phase : Phase) (cntNonzero cmdValid : Bool) : Option Instr :=
  if rst then some .reset
  else match phase with
    | .run => if cntNonzero then some .iter else some .finish
    | .idle | .done => if cmdValid then some .accept else none

/-- The 2-bit code of a phase (R51). -/
def phaseCode : Phase → Bits 2
  | .idle => 0
  | .run => 1
  | .done => 2

/-- The phase of a code; 3 is none (R51). -/
def phaseOfCode (code : Bits 2) : Option Phase :=
  if code = 0 then some .idle else if code = 1 then some .run else if code = 2 then some .done else none

/-- Why a word is no instruction. -/
inductive DecodeReject where
  /-- A selection word of R90's last row: the block has no step and waits. -/
  | noStep
  /-- A selection word with `PHASE = 3`, which is never produced (R51). -/
  | unusedPhase
deriving DecidableEq, Repr

/-- The step a selection word `rst ‖ PHASE[1:0] ‖ (U(CNT) > 0) ‖ cmd_valid` picks (`opcode_table.json` SEQ rows). -/
def decodeSelection (word : Bits 5) : Except DecodeReject Instr :=
  if word.getLsbD 4 then .ok .reset
  else match phaseOfCode (word.extractLsb' 2 2) with
    | none => .error .unusedPhase
    | some phase =>
      match selectStep false phase (word.getLsbD 1) (word.getLsbD 0) with
      | none => .error .noStep
      | some i => .ok i

/-! ### Words of all three kinds, and the encoder -/

/-- A word of one of the opcode table's three formats, for operand fields of `w` bits. -/
inductive CodeWord (w : Nat) where
  | command (word : Bits (2 + w + w))
  | pair (word : Bits 2)
  | selection (word : Bits 5)
deriving DecidableEq, Repr

/-- The instruction a word of any format carries. -/
def decode (c : Config) : CodeWord c.w → Except DecodeReject Instr
  | .command word => .ok (decodeCommand c word)
  | .pair word => .ok (decodePair word)
  | .selection word => decodeSelection word

/-- The word of an instruction, unused and don't-care bits zero (R42, R43, R46, R48, R52; the SEQ rows' patterns). ASR is "not a
step of its own" and has ITER's word. -/
def encode (c : Config) : Instr → CodeWord c.w
  | .nop => .command (commandWord 0#2 0 0)
  | .enc value => .command (commandWord 1#2 (wrap c.w value) 0)
  | .dec _ bits => .command (commandWord 2#2 (zext c.w bits) 0)
  | .mul x y => .command (commandWord 3#2 (wrap c.w x) (wrap c.w y))
  | .holdZeros => .pair 0b00#2
  | .add => .pair 0b01#2
  | .sub => .pair 0b10#2
  | .holdOnes => .pair 0b11#2
  | .reset => .selection 0b10000#5
  | .iter => .selection 0b00110#5
  | .asr => .selection 0b00110#5
  | .finish => .selection 0b00100#5
  | .accept => .selection 0b00001#5

/-- The instruction a word is decoded to when it is `i`'s: `i` itself, but for ASR, which has ITER's word (R76). -/
def Instr.selectedAs : Instr → Instr
  | .nop => .nop
  | .enc value => .enc value
  | .dec len bits => .dec len bits
  | .mul x y => .mul x y
  | .holdZeros => .holdZeros
  | .add => .add
  | .sub => .sub
  | .holdOnes => .holdOnes
  | .reset => .reset
  | .iter => .iter
  | .asr => .iter
  | .finish => .finish
  | .accept => .accept

/-! ### The opcode table's words -/

/-- The format and the bits of a word of the opcode table, at the reference instance: 26 bits a command, 2 a pair, 5 a selection.
Both short formats fill one byte; a byte below 4 is then read as a pair (DESIGN CHOICE, log entry 6). -/
def tableWord (nbits w : Nat) : Option (CodeWord Config.reference.w) :=
  if 8 < nbits then
    if w < 2 ^ 26 then some (.command (BitVec.ofNat _ w)) else none
  else if w < 4 ∧ (nbits ≤ 2 ∨ 5 < nbits) then some (.pair (BitVec.ofNat _ w))
  else if w < 32 ∧ 2 < nbits then some (.selection (BitVec.ofNat _ w))
  else none

/-- The instruction of an opcode-table word (the table gives the reference instance, `N = 6`, `W = 12`). -/
def decodeTableWord (nbits w : Nat) : Option Instr :=
  match tableWord nbits w with
  | none => none
  | some word =>
    match decode Config.reference word with
    | .ok i => some i
    | .error _ => none

end Sys2Proof
end

