-- ==== Sys2Proof/Machine/Ops.lean ====
section
/-! DEFINITION. The named operations over the registers, the ports and the trace, among them the raising of an error. There is
no memory (R30), hence no operation over one. -/

namespace Sys2Proof.Machine

/-- The host drives nothing: `rst = 0`, `cmd_valid = 0`. -/
def HostInput.idle (w : Nat) : HostInput w := { rst := false, cmdValid := false, cmdOp := 0, cmdA := 0, cmdB := 0 }

/-- The host presents a command word (R42). -/
def HostInput.present {w : Nat} (word : Bits (2 + w + w)) : HostInput w :=
  { rst := false, cmdValid := true, cmdOp := commandOp word, cmdA := commandA word, cmdB := commandB word }

/-- The host asserts reset and presents nothing. -/
def HostInput.reset (w : Nat) : HostInput w := { HostInput.idle w with rst := true }

/-- The command word on the ports, `cmd_op ‖ cmd_a ‖ cmd_b` (R19, R42). -/
def HostInput.word {w : Nat} (h : HostInput w) : Bits (2 + w + w) := commandWord h.cmdOp h.cmdA h.cmdB

/-- What the host presents in this step. -/
def Block.input {c : Config} (b : Block c) : HostInput c.w := b.host.headD (HostInput.idle c.w)

/-- The next step sees the host's next entry. -/
def Block.tick {c : Config} (b : Block c) : Block c := { b with host := b.host.tail }

/-- `tick` after a step that answers a next state. -/
def tickOutcome : Host.Outcome State Fault Refusal → Host.Outcome State Fault Refusal
  | .next s => .next { s with block := s.block.tick }
  | .fault r => .fault r
  | .refused r => .refused r

/-- An operation completes: the three response registers are written together with `PHASE <- DONE` (R17, R33). -/
def Block.complete {c : Config} (b : Block c) (e : Err) (val bits : Bits (c.width + c.width)) : Block c :=
  { b with resErr := e, resVal := val, resBits := bits, phase := .done }

/-- `raise E` (R106): the code, a zero value, a zero string, `PHASE <- DONE`, and nothing else. There is no handler and nothing
to return from (R108). -/
def Block.raise {c : Config} (b : Block c) (e : Err) : Block c := b.complete e 0 0

/-- `P, Q, QM1, M, CNT <- unspecified` (R120): five free values. -/
def Block.forgetDatapath {c : Config} (b : Block c) : Block c :=
  { b with
    p := Config.freeBits b.draws c.width
    q := Config.freeBits (b.draws + 1) c.width
    qm1 := (Config.freeBits (b.draws + 2) 1).getLsbD 0
    m := Config.freeBits (b.draws + 3) c.width
    cnt := Config.freeBits (b.draws + 4) c.cntWidth
    draws := b.draws + 5 }

/-- The control and response registers after RESET (R22, R120). -/
def Block.clearControl {c : Config} (b : Block c) : Block c := { b with phase := .idle, resErr := .noError, resVal := 0, resBits := 0 }

/-- LOAD (R71): the six writes that start a Multiply. -/
def Block.load {c : Config} (b : Block c) (x y : Int) : Block c :=
  { b with
    m := wrap c.width x
    p := 0
    q := wrap c.width y
    qm1 := false
    cnt := BitVec.ofNat c.cntWidth c.width
    phase := .run }

/-- `P <- v`. -/
def Block.setP {c : Config} (b : Block c) (v : Bits c.width) : Block c := { b with p := v }

/-- ASR: the combined register moves right by one place (R76). -/
def Block.shift {c : Config} (b : Block c) : Block c :=
  { b with
    p := combinedP (shiftCombined (combined b.p b.q b.qm1))
    q := combinedQ (shiftCombined (combined b.p b.q b.qm1))
    qm1 := combinedQM1 (shiftCombined (combined b.p b.q b.qm1)) }

/-- `CNT <- CNT - 1` (R72, R15). -/
def Block.countDown {c : Config} (b : Block c) : Block c := { b with cnt := b.cnt - 1 }

/-- The event `(i, tag, P, Q, QM1)` of the registers as they stand, `i = N - U(CNT) + 1` (R97). -/
def Block.event {c : Config} (b : Block c) (tag : Tag) : TraceEvent c.width :=
  { i := c.n - U b.cnt + 1, tag := tag, p := b.p, q := b.q, qm1 := b.qm1 }

/-- `if TRACE_EN: emit ...` (R97). -/
def Block.emit {c : Config} (b : Block c) (tag : Tag) : Block c :=
  { b with trace := if c.traceEn then b.trace ++ [b.event tag] else b.trace }

/-- The step R90 selects in this state; `none` is "no step". -/
def Block.selected {c : Config} (b : Block c) : Option Instr :=
  selectStep b.input.rst b.phase (decide (0 < U b.cnt)) b.input.cmdValid

/-- The selection word `rst ‖ PHASE[1:0] ‖ (U(CNT) > 0) ‖ cmd_valid` (`30_encoding.md`, before section 1). -/
def Block.selectionWord {c : Config} (b : Block c) : Bits 5 :=
  BitVec.ofBool b.input.rst ++ phaseCode b.phase ++ BitVec.ofBool (decide (0 < U b.cnt)) ++ BitVec.ofBool b.input.cmdValid

end Sys2Proof.Machine
end

