-- ==== Sys2Proof/Machine/Codec.lean ====
section
/-! DEFINITION. The codec: the functions Encode and Decode (`40_codec.md` R60, R61), bit-strings as text (R41), and the
commands ENC and DEC (R64, R65). -/

namespace Sys2Proof.Machine

/-- `Encode(value, N)` (R60). -/
def encodeBits (value n : Int) : Except Err (Bits n.toNat) :=
  if n ≤ 0 then .error .config
  else if ¬ inRange n.toNat value then .error .range
  else .ok (BitVec.ofNat n.toNat (if value < 0 then value + 2 ^ n.toNat else value).toNat)

/-- `Decode(bits)`, on a string of `len` bits (R61). -/
def decodeBits {len : Nat} (bits : Bits len) : Except Err Int :=
  if len = 0 then .error .format
  else if bits.getLsbD (len - 1) then .ok ((U bits : Int) - 2 ^ len)
  else .ok (U bits)

/-- A bit-string as text, most significant bit first (R41). -/
def toText {n : Nat} (v : Bits n) : List Char := (List.range n).map fun k => if v.getMsbD k then '1' else '0'

/-- The unsigned number a text of binary digits denotes. -/
def textValue (cs : List Char) : Nat := cs.foldl (fun u ch => 2 * u + if ch = '1' then 1 else 0) 0

/-- `Decode` of a character string: FORMAT when it is empty or holds a character other than '0' or '1' (R61, R102). No port can
present such a character; this is BINMUL's functional level. -/
def decodeText (cs : List Char) : Except Err Int :=
  if cs.all (fun ch => ch = '0' || ch = '1') then decodeBits (BitVec.ofNat cs.length (textValue cs))
  else .error .format

/-- `ENC v` (R64). -/
def execEnc (value : Int) (s : State) : Host.Outcome State Fault Refusal :=
  match encodeBits value s.cfg.n with
  | .error e => .next { s with block := s.block.raise e }
  | .ok str => .next { s with block := s.block.complete .noError 0 (zext _ str) }

/-- `DEC "s"` (R65). -/
def execDec (len : Nat) (bits : Bits len) (s : State) : Host.Outcome State Fault Refusal :=
  match decodeBits bits with
  | .error e => .next { s with block := s.block.raise e }
  | .ok x => .next { s with block := s.block.complete .noError (wrap _ x) 0 }

end Sys2Proof.Machine
end

