-- ==== Sys2Proof/Machine/Multiplier.lean ====
section
/-! DEFINITION. The multiplier: MUL's checks and LOAD (`41_multiplier.md` R71), the pair actions (R73 to R75), the shift (R76),
one iteration (R72) and FINISH (R77). The micro-operations are the sub-steps of one ITER; as instructions each maps the state
before its sub-step to the state after it, with `P1` in `P` (DEDUCED, log entry 7). -/

namespace Sys2Proof.Machine

/-- `MUL x, y` (R71): the checks, in the order of R105, then LOAD. -/
def execMul (x y : Int) (s : State) : Host.Outcome State Fault Refusal :=
  if s.cfg.n ≤ 0 then .next { s with block := s.block.raise .config }
  else if ¬ inRange s.cfg.width x ∨ ¬ inRange s.cfg.width y then .next { s with block := s.block.raise .range }
  else .next { s with block := s.block.load x y }

/-- `wrap_N(S(P) + S(M))`: the carry out of the top bit is discarded, and nothing records it (R73). -/
def Block.sum {c : Config} (b : Block c) : Bits c.width := wrap c.width (S b.p + S b.m)

/-- `wrap_N(S(P) - S(M))`, by the same wrap rule (R74). -/
def Block.difference {c : Config} (b : Block c) : Bits c.width := wrap c.width (S b.p - S b.m)

/-- `P1`, the accumulator after the action the pair `Q[0] QM1` selects and before the shift (R24, R48, R72). -/
def Block.p1 {c : Config} (b : Block c) : Bits c.width := onPair (b.q.getLsbD 0) b.qm1 b.p b.sum b.difference b.p

/-- `HOLD`, pair 00 (R75): "P unchanged." -/
def execHoldZeros (s : State) : Host.Outcome State Fault Refusal := .next s

/-- `ADD`, pair 01 (R73). -/
def execAdd (s : State) : Host.Outcome State Fault Refusal := .next { s with block := s.block.setP s.block.sum }

/-- `SUB`, pair 10 (R74). -/
def execSub (s : State) : Host.Outcome State Fault Refusal := .next { s with block := s.block.setP s.block.difference }

/-- `HOLD`, pair 11 (R75): "P unchanged." -/
def execHoldOnes (s : State) : Host.Outcome State Fault Refusal := .next s

/-- `ASR`, sub-step 2 (R76). -/
def execAsr (s : State) : Host.Outcome State Fault Refusal := .next { s with block := s.block.shift }

/-- `ITER` (R72): the pair's action, the PRE event, the shift, the POST event, the counter. -/
def execIter (s : State) : Host.Outcome State Fault Refusal :=
  .next { s with block := ((((s.block.setP s.block.p1).emit .pre).shift).emit .post).countDown }

/-- `FINISH` (R77): the response is `P ‖ Q`. -/
def execFinish (s : State) : Host.Outcome State Fault Refusal :=
  .next { s with block := s.block.complete .noError (product s.block.p s.block.q) (product s.block.p s.block.q) }

end Sys2Proof.Machine
end

