-- ==== Sys2Proof/Machine/Sequencer.lean ====
section
/-! DEFINITION. NOP (`42_sequencer_and_trace.md` R92), ACCEPT (R91) and RESET (`70_reset_and_hazards.md` R120). -/

namespace Sys2Proof.Machine

/-- `NOP` (R92): nothing. -/
def execNop (s : State) : Host.Outcome State Fault Refusal := .next s

/-- `RESET` (R120): IDLE, a zero response, an unspecified datapath. -/
def execReset (s : State) : Host.Outcome State Fault Refusal := .next { s with block := s.block.clearControl.forgetDatapath }

/-- `ACCEPT` (R91): the command word on the ports is sampled whole and performed in this same step. -/
def execAccept (s : State) : Host.Outcome State Fault Refusal :=
  onCommand s.cfg s.block.input.word (execNop s) (fun v => execEnc v s) (fun len bits => execDec len bits s)
    (fun x y => execMul x y s)

end Sys2Proof.Machine
end

