-- ==== Sys2Proof/Machine/Dispatch.lean ====
section
/-! DEFINITION. One arm per instruction. -/

namespace Sys2Proof.Machine

def exec (i : Instr) (s : State) : Host.Outcome State Fault Refusal :=
  match i with
  | .nop => Sys2Proof.Machine.execNop s
  | .enc value => Sys2Proof.Machine.execEnc value s
  | .dec len bits => Sys2Proof.Machine.execDec len bits s
  | .mul x y => Sys2Proof.Machine.execMul x y s
  | .holdZeros => Sys2Proof.Machine.execHoldZeros s
  | .add => Sys2Proof.Machine.execAdd s
  | .sub => Sys2Proof.Machine.execSub s
  | .holdOnes => Sys2Proof.Machine.execHoldOnes s
  | .reset => Sys2Proof.Machine.execReset s
  | .iter => Sys2Proof.Machine.execIter s
  | .asr => Sys2Proof.Machine.execAsr s
  | .finish => Sys2Proof.Machine.execFinish s
  | .accept => Sys2Proof.Machine.execAccept s

end Sys2Proof.Machine
end

