-- ==== Sys2Proof/Machine/Fetch.lean ====
section
/-! DEFINITION. Placing an opcode-table word where the next step finds it: on the command ports, in the Booth pair, or in the
five bits that select a step (log entries 6 and 9). -/

namespace Sys2Proof.Machine

/-- The host presents `h` in the next step, whatever it would have presented then. -/
def Block.presentInput {c : Config} (b : Block c) (h : HostInput c.w) : Block c := { b with host := h :: b.host.tail }

/-- A Multiply in progress is taken out of the way, so that the next step can accept a command. -/
def Block.leaveRun {c : Config} (b : Block c) : Block c := { b with phase := if b.phase = .run then .idle else b.phase }

/-- The host presents the command word `w`, and the block is ready for it. -/
def Block.placeCommand {c : Config} (b : Block c) (w : Nat) : Block c :=
  (b.presentInput (HostInput.present (BitVec.ofNat _ w))).leaveRun

/-- `PHASE = RUN` with an iteration still to do, or none. -/
def Block.placeRun {c : Config} (b : Block c) (cntNonzero : Bool) : Block c :=
  { b with
    phase := .run
    cnt := if cntNonzero then (if b.cnt = 0 then 1 else b.cnt) else 0 }

/-- The next step is an ITER whose pair is `pair`, `Q[0]` first. -/
def Block.placePair {c : Config} (b : Block c) (pair : Bits 2) : Block c :=
  let b' := (b.presentInput (HostInput.idle c.w)).placeRun true
  { b' with
    q := (b'.q &&& ~~~ 1) ||| (if pair.getLsbD 1 then 1 else 0)
    qm1 := pair.getLsbD 0 }

/-- The next step is selected by `word`: `rst ‖ PHASE[1:0] ‖ (U(CNT) > 0) ‖ cmd_valid`. A command presented with it is NOP. -/
def Block.placeSelection {c : Config} (b : Block c) (word : Bits 5) : Block c :=
  let h : HostInput c.w := { HostInput.idle c.w with rst := word.getLsbD 4, cmdValid := word.getLsbD 0 }
  let b' := b.presentInput h
  if word.getLsbD 4 then b'
  else match phaseOfCode (word.extractLsb' 2 2) with
    | some .run => b'.placeRun (word.getLsbD 1)
    | some phase => { b' with phase := phase }
    | none => b'

/-- A word of the opcode table, where the next step finds it. -/
def Block.placeWord {c : Config} (b : Block c) (nbits w : Nat) : Block c :=
  match tableWord nbits w with
  | some (.command _) => b.placeCommand w
  | some (.pair pair) => b.placePair pair
  | some (.selection word) => b.placeSelection word
  | none => b

end Sys2Proof.Machine
end

