-- ==== Sys2Proof/Machine/Step.lean ====
section
/-! DEFINITION. One step (`42_sequencer_and_trace.md` R90), and the placing of a word for the next step. -/

namespace Sys2Proof.Machine

/-- One step: the instruction R90 selects is executed, or the state is left as it is; then the host's next entry comes up. -/
def step (s : State) : Host.Outcome State Fault Refusal :=
  match s.block.selected with
  | some i => tickOutcome (exec i s)
  | none => .next { s with block := s.block.tick }

/-- `s` with the opcode-table word `w` where the next step finds it. -/
def State.withFetchWord (s : State) (nbits w : Nat) : State := { s with block := s.block.placeWord nbits w }

end Sys2Proof.Machine
end

