-- ==== Sys2Proof/Machine/Flags.lean ====
section
/-! DEFINITION. The outputs of the block, each a function of the state alone (R20), and the numeric codes (R50). There is no
condition flag: ADD and SUB discard carry and overflow (R73, R74, N14). -/

namespace Sys2Proof.Machine

/-- The 2-bit code of an error (R50). -/
def errCode : Err → Bits 2
  | .noError => 0
  | .range => 1
  | .format => 2
  | .config => 3

/-- `cmd_ready` (R20). -/
def Block.cmdReady {c : Config} (b : Block c) : Bool := decide (b.phase ≠ .run)

/-- `rsp_valid` (R20). -/
def Block.rspValid {c : Config} (b : Block c) : Bool := decide (b.phase = .done)

/-- `rsp_err` (R20). -/
def Block.rspErr {c : Config} (b : Block c) : Bits 2 := errCode b.resErr

/-- `rsp_val` (R20). -/
def Block.rspVal {c : Config} (b : Block c) : Bits (c.width + c.width) := b.resVal

/-- `rsp_bits` (R20). -/
def Block.rspBits {c : Config} (b : Block c) : Bits (c.width + c.width) := b.resBits

/-- The response as the host may use it: only while `rsp_valid = 1` (R125, U15). -/
def Block.response {c : Config} (b : Block c) : Option (Bits 2 × Int × Bits (c.width + c.width)) :=
  if b.rspValid then some (b.rspErr, S b.rspVal, b.rspBits) else none

end Sys2Proof.Machine
end

