-- ==== Sys2Proof/Machine/Functional.lean ====
section
/-! DEFINITION. Multiply as a function of its inputs, BINMUL's own level (`41_multiplier.md` R70), and the trace it emits. It is
written on the triple `(P, Q, QM1)` with the integer multiplicand, without the machine's registers `M`, `CNT`, `PHASE`. -/

namespace Sys2Proof.Machine

/-- BINMUL's algorithm state, the triple `(P, Q, Q₋₁)` (`00_scope.md` glossary). -/
structure Triple (n : Nat) where
  p : Bits n
  q : Bits n
  qm1 : Bool
deriving DecidableEq, Repr

/-- `P = 0^N; Q = Encode(b, N); QM1 = 0` (R70); for an in-range `b` Encode is `wrap_N` (R60). -/
def boothStart (n : Nat) (b : Int) : Triple n := { p := 0, q := wrap n b, qm1 := false }

/-- The pair's action on the triple (R70). -/
def boothAction {n : Nat} (a : Int) (t : Triple n) : Triple n :=
  if t.q.getLsbD 0 = false ∧ t.qm1 = true then { t with p := wrap n (S t.p + a) }
  else if t.q.getLsbD 0 = true ∧ t.qm1 = false then { t with p := wrap n (S t.p - a) }
  else t

/-- The shift of the triple, register by register (R76): `P <- P1[N-1] ‖ P1[N-1:1]`, `Q <- P1[0] ‖ Q[N-1:1]`,
`QM1 <- Q[0]`. -/
def boothShift {n : Nat} (t : Triple n) : Triple n where
  p := t.p.sshiftRight 1
  q := (t.q >>> 1) ||| (if t.p.getLsbD 0 then BitVec.twoPow n (n - 1) else 0)
  qm1 := t.q.getLsbD 0

/-- One iteration (R70). -/
def boothIteration {n : Nat} (a : Int) (t : Triple n) : Triple n := boothShift (boothAction a t)

/-- The triple after `k` iterations. -/
def boothRun {n : Nat} (a : Int) : Nat → Triple n → Triple n
  | 0, t => t
  | k + 1, t => boothRun a k (boothIteration a t)

/-- `Multiply(a, b, N)` (R70): the product and its bit-string, or an error. -/
def multiply (a b n : Int) : Except Err (Int × Bits (n.toNat + n.toNat)) :=
  if n ≤ 0 then .error .config
  else if ¬ inRange n.toNat a ∨ ¬ inRange n.toNat b then .error .range
  else
    let t := boothRun a n.toNat (boothStart n.toNat b)
    .ok (S (t.p ++ t.q), t.p ++ t.q)

/-- The two events of iteration `i` that starts from the triple `t` (R97). -/
def boothEvents {n : Nat} (a : Int) (i : Int) (t : Triple n) : List (TraceEvent n) :=
  [{ i := i, tag := .pre, p := (boothAction a t).p, q := t.q, qm1 := t.qm1 },
   { i := i, tag := .post, p := (boothIteration a t).p, q := (boothIteration a t).q, qm1 := (boothIteration a t).qm1 }]

/-- The events of `k` iterations from the triple `t`, the first of them numbered `i` (R97). -/
def boothTrace {n : Nat} (a : Int) : Nat → Int → Triple n → List (TraceEvent n)
  | 0, _, _ => []
  | k + 1, i, t => boothEvents a i t ++ boothTrace a k (i + 1) (boothIteration a t)

end Sys2Proof.Machine
end

