-- ==== Sys2Proof/Safety.lean ====
section
/-! DEFINITION. The terms in which claims about runs are made: several steps, what the host does meanwhile, which states a run
can be in, and the loop invariant of `41_multiplier.md` R81. -/

namespace Sys2Proof

/-- The same parameters with the trace switched on or off. -/
abbrev Config.tracing (c : Config) (en : Bool) : Config := { c with traceEn := en }

end Sys2Proof

namespace Sys2Proof.Machine

/-- `k` steps. -/
def runFor : Nat → State → Host.Outcome State Fault Refusal
  | 0, s => .next s
  | k + 1, s =>
    match step s with
    | .next t => runFor k t
    | .fault r => .fault r
    | .refused r => .refused r

/-- The host does not assert `rst` in the next `k` steps. -/
def Block.NoReset {c : Config} (b : Block c) (k : Nat) : Prop := ∀ h ∈ b.host.take k, h.rst = false

/-- The block accepts the command on its ports in this step (R91): it is not in RUN, and the host presents a command and no
reset. -/
def Block.Accepting {c : Config} (b : Block c) : Prop := b.phase ≠ .run ∧ b.input.rst = false ∧ b.input.cmdValid = true

/-- The command on the ports. -/
def Block.command {c : Config} (b : Block c) : Instr := decodeCommand c b.input.word

/-- The exception a command raises, if any (R100 to R105): the width first, then the range. The micro-operations and the
sequencer's steps raise none (R109). -/
def raisedBy (c : Config) : Instr → Option Err
  | .nop => none
  | .enc v => if c.n ≤ 0 then some .config else if inRange c.width v then none else some .range
  | .dec len _ => if len = 0 then some .format else none
  | .mul x y =>
    if c.n ≤ 0 then some .config else if inRange c.width x ∧ inRange c.width y then none else some .range
  | .holdZeros => none
  | .add => none
  | .sub => none
  | .holdOnes => none
  | .reset => none
  | .iter => none
  | .asr => none
  | .finish => none
  | .accept => none

/-- The host presents, and the block accepts, `MUL x, y` with operands that raise nothing (R71). -/
structure Block.AcceptingMul {c : Config} (b : Block c) (x y : Int) : Prop where
  accepting : b.Accepting
  command : b.command = .mul x y
  width : 1 ≤ c.n
  multiplicand : inRange c.width x
  multiplier : inRange c.width y

/-- While a Multiply runs the width is positive and the counter has not passed it (R15, R25). -/
def Block.CounterInRange {c : Config} (b : Block c) : Prop := b.phase = .run → 1 ≤ c.n ∧ U b.cnt ≤ c.width

/-- The same block with the trace switched on or off and another trace so far. -/
def Block.withTrace {c : Config} (b : Block c) (en : Bool) (tr : List (TraceEvent c.width)) : Block (c.tracing en) :=
  { p := b.p, q := b.q, qm1 := b.qm1, m := b.m, cnt := b.cnt, phase := b.phase, resErr := b.resErr, resVal := b.resVal,
    resBits := b.resBits, host := b.host, trace := tr, draws := b.draws }

/-- The three lines of the loop invariant after `k` iterations of a Multiply of `a` by `b` (R81), with `B = wrap_N(b)`. -/
structure LoopInvariant {n : Nat} (a b : Int) (k : Nat) (p q : Bits n) (qm1 : Bool) : Prop where
  /-- The top `N + k` bits of `P ‖ Q`, as a signed number, are `a * S(B[k-1:0])`. -/
  top : S ((product p q).extractLsb' (n - k) (n + k)) = a * S (lowBits k (wrap n b))
  /-- `Q[N-k-1 : 0] = B[N-1 : k]`. -/
  rest : lowBits (n - k) q = (wrap n b).extractLsb' k (n - k)
  /-- `QM1 = B[k-1]`, and 0 for `k = 0`. -/
  guard : qm1 = (if k = 0 then false else (wrap n b).getLsbD (k - 1))

end Sys2Proof.Machine
end

