-- ==== Sys2Proof/Certificates/Slice0/Obligations.lean ====
section
/-! DEFINITION. The statements for the provers. Each docstring names the rule of the spec it formalises. -/

open Sys2Proof Sys2Proof.Machine

/-! ### Reset -/

/-- R120: RESET writes PHASE and RES_* and leaves the five datapath registers some value or other; the parameters and the trace
stay. With `rst = 1` the step is RESET whatever the phase and whatever is presented, and the command is not accepted. -/
def Obligations.ResetClearsControlState : Prop :=
  ∀ (c : Config) (s : Block c),
    (∃ p q qm1 m cnt draws, exec .reset ⟨c, s⟩ = .next ⟨c, { s with
      p := p, q := q, qm1 := qm1, m := m, cnt := cnt, draws := draws,
      phase := .idle, resErr := .noError, resVal := 0, resBits := 0 }⟩) ∧
    (s.input.rst = true → ∃ p q qm1 m cnt draws, step ⟨c, s⟩ = .next ⟨c, { s with
      p := p, q := q, qm1 := qm1, m := m, cnt := cnt, draws := draws,
      phase := .idle, resErr := .noError, resVal := 0, resBits := 0, host := s.host.tail }⟩)

/-- R22: the values the spec gives for the state after reset, in State.reset and after any RESET step, and what the host sees:
`cmd_ready = 1`, `rsp_valid = 0`. (The five datapath registers, which R22 leaves unspecified, are not mentioned.) -/
def Obligations.AfterResetReadyWithoutResponse : Prop :=
  (State.reset.block.phase = .idle ∧ State.reset.block.resErr = .noError ∧ State.reset.block.resVal = 0 ∧
    State.reset.block.resBits = 0 ∧ State.reset.block.cmdReady = true ∧ State.reset.block.rspValid = false) ∧
  (∀ (c : Config) (s : Block c), ∃ t : Block c, exec .reset ⟨c, s⟩ = .next ⟨c, t⟩ ∧
    t.phase = .idle ∧ t.resErr = .noError ∧ t.resVal = 0 ∧ t.resBits = 0 ∧ t.cmdReady = true ∧ t.rspValid = false)

/-- R121: a reset in RUN leaves no Multiply and no response: if the host presents nothing more, nothing more ever happens. -/
def Obligations.ResetInRunAbandonsMultiply : Prop :=
  ∀ (c : Config) (s : Block c), s.phase = .run → s.input.rst = true →
    ∃ t : Block c, step ⟨c, s⟩ = .next ⟨c, t⟩ ∧ t.phase = .idle ∧ t.response = none ∧ t.cmdReady = true ∧
      (s.host.tail = [] → ∀ k, runFor k ⟨c, t⟩ = .next ⟨c, t⟩)

/-! ### Step selection -/

/-- R90: the five rows of the table, in their priority, and that one of them always applies. -/
def Obligations.StepFollowsSelectionTable : Prop :=
  ∀ (c : Config) (s : Block c),
    (s.input.rst = true → step ⟨c, s⟩ = tickOutcome (exec .reset ⟨c, s⟩)) ∧
    (s.input.rst = false → s.phase = .run → 0 < U s.cnt → step ⟨c, s⟩ = tickOutcome (exec .iter ⟨c, s⟩)) ∧
    (s.input.rst = false → s.phase = .run → U s.cnt = 0 → step ⟨c, s⟩ = tickOutcome (exec .finish ⟨c, s⟩)) ∧
    (s.input.rst = false → s.phase ≠ .run → s.input.cmdValid = true → step ⟨c, s⟩ = tickOutcome (exec .accept ⟨c, s⟩)) ∧
    (s.input.rst = false → s.phase ≠ .run → s.input.cmdValid = false →
      step ⟨c, s⟩ = .next ⟨c, { s with host := s.host.tail }⟩)

/-- A step runs the instruction its selection word decodes to, and then the host's next entry comes up; an ACCEPT runs the
instruction the command word decodes to; the selection word never holds the unused phase. -/
def Obligations.StepRunsDecodedInstruction : Prop :=
  (∀ (c : Config) (s : Block c) (i : Instr), decodeSelection s.selectionWord = .ok i →
    step ⟨c, s⟩ = tickOutcome (exec i ⟨c, s⟩)) ∧
  (∀ (c : Config) (s : Block c), decodeSelection s.selectionWord = .error .noStep →
    step ⟨c, s⟩ = .next ⟨c, { s with host := s.host.tail }⟩) ∧
  (∀ (c : Config) (s : Block c), decodeSelection s.selectionWord ≠ .error .unusedPhase) ∧
  (∀ (c : Config) (s : Block c), exec .accept ⟨c, s⟩ = exec (decodeCommand c s.input.word) ⟨c, s⟩) ∧
  (∀ (c : Config) (t : Block c), tickOutcome (.next ⟨c, t⟩) = .next ⟨c, { t with host := t.host.tail }⟩)

/-- R91: the step that accepts a command, from IDLE and from DONE alike, performs the whole of the operation its code names;
whether it is accepted does not depend on the operands; if an error is raised it is R106's raising; accepting a command other
than NOP discards the previous response: what the host then sees does not depend on it. -/
def Obligations.AcceptPerformsPresentedCommand : Prop :=
  ∀ (c : Config) (s : Block c), s.phase ≠ .run → s.input.rst = false → s.input.cmdValid = true →
    step ⟨c, s⟩ = tickOutcome (exec .accept ⟨c, s⟩) ∧
    (s.input.cmdOp = 0 → exec .accept ⟨c, s⟩ = exec .nop ⟨c, s⟩) ∧
    (s.input.cmdOp = 1 → exec .accept ⟨c, s⟩ = exec (.enc (S s.input.cmdA)) ⟨c, s⟩) ∧
    (s.input.cmdOp = 2 → exec .accept ⟨c, s⟩ = exec (.dec c.width (lowBits c.width s.input.cmdA)) ⟨c, s⟩) ∧
    (s.input.cmdOp = 3 → exec .accept ⟨c, s⟩ = exec (.mul (S s.input.cmdA) (S s.input.cmdB)) ⟨c, s⟩) ∧
    (∀ e, raisedBy c s.command = some e →
      exec .accept ⟨c, s⟩ = .next ⟨c, { s with resErr := e, resVal := 0, resBits := 0, phase := .done }⟩) ∧
    (s.input.cmdOp ≠ 0 → ∀ e val bits, ∃ t u : Block c, step ⟨c, s⟩ = .next ⟨c, t⟩ ∧
      step ⟨c, { s with resErr := e, resVal := val, resBits := bits }⟩ = .next ⟨c, u⟩ ∧ t.response = u.response)

/-- The whole of what one ACCEPT step leaves, for each operation code, when nothing is raised (R91 with R64, R65, R71, R92). -/
def Obligations.AcceptCompletesEveryCommand : Prop :=
  ∀ (c : Config) (s : Block c),
    (s.input.cmdOp = 0 → exec .accept ⟨c, s⟩ = .next ⟨c, s⟩) ∧
    (s.input.cmdOp = 1 → 1 ≤ c.n → inRange c.width (S s.input.cmdA) → exec .accept ⟨c, s⟩ = .next ⟨c, { s with
      resErr := .noError, resVal := 0,
      resBits := (BitVec.ofInt c.width (S s.input.cmdA)).setWidth (c.width + c.width), phase := .done }⟩) ∧
    (s.input.cmdOp = 2 → 1 ≤ c.n → exec .accept ⟨c, s⟩ = .next ⟨c, { s with
      resErr := .noError, resBits := 0,
      resVal := (s.input.cmdA.extractLsb' 0 c.width).signExtend (c.width + c.width), phase := .done }⟩) ∧
    (s.input.cmdOp = 3 → 1 ≤ c.n → inRange c.width (S s.input.cmdA) → inRange c.width (S s.input.cmdB) →
      exec .accept ⟨c, s⟩ = .next ⟨c, { s with
        m := BitVec.ofInt c.width (S s.input.cmdA), p := 0, q := BitVec.ofInt c.width (S s.input.cmdB),
        qm1 := false, cnt := BitVec.ofNat c.cntWidth c.width, phase := .run }⟩)

/-- R93: a command presented in RUN changes nothing: the step is the one taken whatever else, or nothing, is presented. -/
def Obligations.CommandPresentedInRunIsDropped : Prop :=
  ∀ (c : Config) (s : Block c) (h : HostInput c.w), s.phase = .run → s.input.rst = false → h.rst = false →
    s.cmdReady = false ∧ step ⟨c, { s with host := h :: s.host.tail }⟩ = step ⟨c, s⟩

/-- Every step, and every instruction in every state, answers a next state: the block never stops. -/
def Obligations.EveryStepAnswersNextState : Prop :=
  (∀ s : State, ∃ t, step s = .next t) ∧ (∀ (i : Instr) (s : State), ∃ t, exec i s = .next t)

/-! ### The commands -/

/-- R92: NOP writes nothing, whatever the width and the phase; presented in RUN it is dropped, with the same effect as if
nothing had been presented. -/
def Obligations.NopChangesNothing : Prop :=
  (∀ (c : Config) (s : Block c), exec .nop ⟨c, s⟩ = .next ⟨c, s⟩) ∧
  (∀ (c : Config) (s : Block c), s.Accepting → s.input.cmdOp = 0 → step ⟨c, s⟩ = .next ⟨c, { s with host := s.host.tail }⟩) ∧
  (∀ (c : Config) (s : Block c) (a b : Bits c.w), s.phase = .run →
    step ⟨c, { s with host := { rst := false, cmdValid := true, cmdOp := 0, cmdA := a, cmdB := b } :: s.host.tail }⟩ =
    step ⟨c, { s with host := HostInput.idle c.w :: s.host.tail }⟩)

/-- R64: ENC answers the encoding, zero-extended, or raises CONFIG or RANGE; nothing else changes. `op = 01`, `cmd_b` is
ignored. It completes in the step that accepts it. -/
def Obligations.EncAnswersEncodingOrRaises : Prop :=
  (∀ (c : Config) (s : Block c) (v : Int),
    (c.n ≤ 0 → exec (.enc v) ⟨c, s⟩ = .next ⟨c, { s with resErr := .config, resVal := 0, resBits := 0, phase := .done }⟩) ∧
    (1 ≤ c.n → ¬ inRange c.width v →
      exec (.enc v) ⟨c, s⟩ = .next ⟨c, { s with resErr := .range, resVal := 0, resBits := 0, phase := .done }⟩) ∧
    (1 ≤ c.n → inRange c.width v → ∃ str : Bits c.width, S str = v ∧ encodeBits v c.n = .ok str ∧
      exec (.enc v) ⟨c, s⟩ = .next ⟨c, { s with
        resErr := .noError, resVal := 0, resBits := str.setWidth (c.width + c.width), phase := .done }⟩)) ∧
  (∀ (c : Config) (a b : Bits c.w), decodeCommand c (1#2 ++ a ++ b) = .enc (S a)) ∧
  (∀ (c : Config) (s : Block c), s.Accepting → s.input.cmdOp = 1 →
    step ⟨c, s⟩ = tickOutcome (exec (.enc (S s.input.cmdA)) ⟨c, s⟩))

/-- R65: DEC answers the string's value, sign-extended, or raises FORMAT on the empty string; nothing else changes. `op = 10`,
`cmd_a[W-1:N]` and `cmd_b` are ignored. It completes in the step that accepts it. -/
def Obligations.DecAnswersValueOrRaises : Prop :=
  (∀ (c : Config) (s : Block c) (bits : Bits c.width),
    (c.n ≤ 0 → exec (.dec c.width bits) ⟨c, s⟩ = .next ⟨c, { s with
      resErr := .format, resVal := 0, resBits := 0, phase := .done }⟩) ∧
    (1 ≤ c.n → ∃ v : Bits (c.width + c.width), v = bits.signExtend (c.width + c.width) ∧
      decodeBits bits = .ok (S v) ∧
      exec (.dec c.width bits) ⟨c, s⟩ = .next ⟨c, { s with
        resErr := .noError, resVal := v, resBits := 0, phase := .done }⟩)) ∧
  (∀ (c : Config) (a b : Bits c.w), decodeCommand c (2#2 ++ a ++ b) = .dec c.width (a.extractLsb' 0 c.width)) ∧
  (∀ (c : Config) (s : Block c), s.Accepting → s.input.cmdOp = 2 →
    step ⟨c, s⟩ = tickOutcome (exec (.dec c.width (s.input.cmdA.extractLsb' 0 c.width)) ⟨c, s⟩))

/-- R71: MUL loads the datapath, or raises CONFIG, or RANGE, in that order, and then loads nothing. `op = 11`. The accepting
step does it. -/
def Obligations.MulLoadsOrRaises : Prop :=
  (∀ (c : Config) (s : Block c) (x y : Int),
    (c.n ≤ 0 → exec (.mul x y) ⟨c, s⟩ = .next ⟨c, { s with resErr := .config, resVal := 0, resBits := 0, phase := .done }⟩) ∧
    (1 ≤ c.n → ¬ inRange c.width x ∨ ¬ inRange c.width y →
      exec (.mul x y) ⟨c, s⟩ = .next ⟨c, { s with resErr := .range, resVal := 0, resBits := 0, phase := .done }⟩) ∧
    (1 ≤ c.n → inRange c.width x → inRange c.width y →
      ∃ (m q : Bits c.width) (cnt : Bits c.cntWidth),
        encodeBits x c.n = .ok m ∧ S m = x ∧ encodeBits y c.n = .ok q ∧ S q = y ∧ U cnt = c.width ∧
        exec (.mul x y) ⟨c, s⟩ = .next ⟨c, { s with m := m, p := 0, q := q, qm1 := false, cnt := cnt, phase := .run }⟩)) ∧
  (∀ (c : Config) (a b : Bits c.w), decodeCommand c (3#2 ++ a ++ b) = .mul (S a) (S b)) ∧
  (∀ (c : Config) (s : Block c), s.Accepting → s.input.cmdOp = 3 →
    step ⟨c, s⟩ = tickOutcome (exec (.mul (S s.input.cmdA) (S s.input.cmdB)) ⟨c, s⟩))

/-! ### The errors -/

/-- R101: RANGE is raised by ENC and by MUL exactly when an operand is below `-2^(N-1)` or above `2^(N-1) - 1`; the most negative
value raises nothing; DEC, the pair actions and FINISH never raise it. -/
def Obligations.RangeRaisedExactlyOutOfRange : Prop :=
  ∀ (c : Config) (s : Block c) (x y : Int), 1 ≤ c.n →
    ((∃ t : Block c, exec (.enc x) ⟨c, s⟩ = .next ⟨c, t⟩ ∧ t.phase = .done ∧ t.resErr = .range) ↔
      (x < -2 ^ (c.width - 1) ∨ 2 ^ (c.width - 1) - 1 < x)) ∧
    ((∃ t : Block c, exec (.mul x y) ⟨c, s⟩ = .next ⟨c, t⟩ ∧ t.phase = .done ∧ t.resErr = .range) ↔
      ((x < -2 ^ (c.width - 1) ∨ 2 ^ (c.width - 1) - 1 < x) ∨
        (y < -2 ^ (c.width - 1) ∨ 2 ^ (c.width - 1) - 1 < y))) ∧
    raisedBy c (.enc (-2 ^ (c.width - 1))) = none ∧
    raisedBy c (.mul (-2 ^ (c.width - 1)) (-2 ^ (c.width - 1))) = none ∧
    (∀ bits : Bits c.width, ∃ t : Block c, exec (.dec c.width bits) ⟨c, s⟩ = .next ⟨c, t⟩ ∧ t.resErr = .noError) ∧
    (∃ t : Block c, exec .finish ⟨c, s⟩ = .next ⟨c, t⟩ ∧ t.resErr = .noError) ∧
    (∃ t : Block c, exec .add ⟨c, s⟩ = .next ⟨c, t⟩ ∧ t.resErr = s.resErr) ∧
    (∃ t : Block c, exec .sub ⟨c, s⟩ = .next ⟨c, t⟩ ∧ t.resErr = s.resErr)

/-- R103, R104, R105: with `N <= 0` ENC and MUL raise CONFIG whatever their operands, and DEC, whose string is empty, raises
FORMAT; with a positive width a MUL with both operands out of range raises the one RANGE, and nothing ever raises CONFIG. -/
def Obligations.WidthErrorsComeBeforeRange : Prop :=
  ∀ (c : Config) (s : Block c) (x y : Int) (bits : Bits c.width),
    (c.n ≤ 0 →
      exec (.enc x) ⟨c, s⟩ = .next ⟨c, { s with resErr := .config, resVal := 0, resBits := 0, phase := .done }⟩ ∧
      exec (.mul x y) ⟨c, s⟩ = .next ⟨c, { s with resErr := .config, resVal := 0, resBits := 0, phase := .done }⟩ ∧
      exec (.dec c.width bits) ⟨c, s⟩ = .next ⟨c, { s with resErr := .format, resVal := 0, resBits := 0, phase := .done }⟩) ∧
    (1 ≤ c.n → ¬ inRange c.width x → ¬ inRange c.width y →
      exec (.mul x y) ⟨c, s⟩ = .next ⟨c, { s with resErr := .range, resVal := 0, resBits := 0, phase := .done }⟩) ∧
    (1 ≤ c.n → ∀ (i : Instr) (t : Block c), exec i ⟨c, s⟩ = .next ⟨c, t⟩ → t.resErr = .config → s.resErr = .config)

/-- R106: raising an error writes the code, zeros and DONE and nothing else; presenting the same command again raises the same
error. R108: the block is ready, and the next command's own outcome replaces the code. -/
def Obligations.RaisedErrorIsTheWholeResponse : Prop :=
  ∀ (c : Config) (s : Block c) (i : Instr) (e : Err), raisedBy c i = some e →
    ∃ t : Block c, t = { s with resErr := e, resVal := 0, resBits := 0, phase := .done } ∧
      exec i ⟨c, s⟩ = .next ⟨c, t⟩ ∧ exec i ⟨c, t⟩ = .next ⟨c, t⟩ ∧ t.cmdReady = true ∧
      (∀ v, raisedBy c (.enc v) = none → ∃ u : Block c, exec (.enc v) ⟨c, t⟩ = .next ⟨c, u⟩ ∧ u.resErr = .noError) ∧
      (∀ len (bits : Bits len), raisedBy c (.dec len bits) = none →
        ∃ u : Block c, exec (.dec len bits) ⟨c, t⟩ = .next ⟨c, u⟩ ∧ u.resErr = .noError)

/-! ### The micro-operations -/

/-- R73: ADD is the `N`-bit sum with the carry discarded and no flag: only `P` changes. The exact sum lies in
`[-2^N, 2^N - 2]`; outside the `N`-bit range the result has the wrong sign; with the most negative multiplicand ADD inverts the
top bit; with any other it never leaves the `N`-bit range
in a run started by LOAD (a state that meets the loop invariant of R81). -/
def Obligations.AddWrapsAndDiscardsCarry : Prop :=
  (∀ (c : Config) (s : Block c),
    exec .add ⟨c, s⟩ = .next ⟨c, { s with p := BitVec.ofInt c.width (S s.p + S s.m) }⟩ ∧
    BitVec.ofInt c.width (S s.p + S s.m) = BitVec.ofNat c.width (U s.p + U s.m) ∧
    (1 ≤ c.n → -2 ^ c.width ≤ S s.p + S s.m ∧ S s.p + S s.m ≤ 2 ^ c.width - 2) ∧
    (1 ≤ c.n → ¬ inRange c.width (S s.p + S s.m) →
      (S (BitVec.ofInt c.width (S s.p + S s.m)) < 0 ↔ 0 ≤ S s.p + S s.m)) ∧
    (s.m = BitVec.intMin c.width →
      BitVec.ofInt c.width (S s.p + S s.m) = s.p ^^^ BitVec.twoPow c.width (c.width - 1))) ∧
  (∀ (n k : Nat) (a b : Int) (p q : Bits n), k < n → inRange n a → inRange n b → a ≠ -2 ^ (n - 1) →
    q.getLsbD 0 = false → LoopInvariant a b k p q true → inRange n (S p + a))

/-- R74: SUB is the `N`-bit difference with the overflow discarded and no flag: only `P` changes. With the most negative
multiplicand SUB and ADD are the same operation; with a zero multiplicand both leave `P`. -/
def Obligations.SubWrapsAndDiscardsOverflow : Prop :=
  ∀ (c : Config) (s : Block c),
    exec .sub ⟨c, s⟩ = .next ⟨c, { s with p := BitVec.ofInt c.width (S s.p - S s.m) }⟩ ∧
    BitVec.ofInt c.width (S s.p - S s.m) = BitVec.ofNat c.width (U s.p + U (~~~ s.m) + 1) ∧
    (1 ≤ c.n → -2 ^ c.width + 1 ≤ S s.p - S s.m ∧ S s.p - S s.m ≤ 2 ^ c.width - 1) ∧
    (s.m = BitVec.intMin c.width → exec .sub ⟨c, s⟩ = exec .add ⟨c, s⟩ ∧
      BitVec.ofInt c.width (S s.p - S s.m) = s.p ^^^ BitVec.twoPow c.width (c.width - 1)) ∧
    (s.m = 0 → exec .sub ⟨c, s⟩ = .next ⟨c, s⟩ ∧ exec .add ⟨c, s⟩ = .next ⟨c, s⟩)

/-- R75: HOLD, in both its encodings, changes nothing. A multiplier of 0 gives `N` pairs "00"; a multiplier of -1 gives one "10"
and then pairs "11". -/
def Obligations.HoldLeavesEverything : Prop :=
  (∀ (c : Config) (s : Block c), exec .holdZeros ⟨c, s⟩ = .next ⟨c, s⟩ ∧ exec .holdOnes ⟨c, s⟩ = .next ⟨c, s⟩) ∧
  (∀ (n k : Nat) (a : Int), k < n →
    ((boothRun a k (boothStart n 0)).q.getLsbD 0, (boothRun a k (boothStart n 0)).qm1) = (false, false) ∧
    ((boothRun a k (boothStart n (-1))).q.getLsbD 0, (boothRun a k (boothStart n (-1))).qm1) =
      (true, if k = 0 then false else true))

/-- R76: ASR moves the combined register right by one place, the sign bit of `P` copied in: register by register, and as
integers. Only `P`, `Q`, `QM1` change. Every ITER does it, on the accumulator after the pair's action. -/
def Obligations.AsrShiftsCombinedRegister : Prop :=
  ∀ (c : Config) (s : Block c), ∃ (p q : Bits c.width) (qm1 : Bool),
    exec .asr ⟨c, s⟩ = .next ⟨c, { s with p := p, q := q, qm1 := qm1 }⟩ ∧
    (1 ≤ c.n →
      p ++ q ++ BitVec.ofBool qm1 = (s.p ++ s.q ++ BitVec.ofBool s.qm1).sshiftRight 1 ∧
      (∀ i, i < c.width →
        p.getLsbD i = (if i = c.width - 1 then s.p.getLsbD (c.width - 1) else s.p.getLsbD (i + 1)) ∧
        q.getLsbD i = (if i = c.width - 1 then s.p.getLsbD 0 else s.q.getLsbD (i + 1))) ∧
      qm1 = s.q.getLsbD 0 ∧
      S p = S s.p / 2 ∧
      S (p ++ q) = S (s.p ++ s.q) / 2) ∧
    (∃ (t : Block c) (tr : List (TraceEvent c.width)), exec .asr ⟨c, { s with p := s.p1 }⟩ = .next ⟨c, t⟩ ∧
      exec .iter ⟨c, s⟩ = .next ⟨c, { t with cnt := t.cnt - 1, trace := tr }⟩)

/-- R48: the pair `Q[0] QM1` selects the action, and the shift always follows: but for the trace, one ITER is the pair's
instruction, then ASR, then the counter. -/
def Obligations.PairSelectsActionThenShift : Prop :=
  decodePair 0b00#2 = .holdZeros ∧ decodePair 0b01#2 = .add ∧ decodePair 0b10#2 = .sub ∧ decodePair 0b11#2 = .holdOnes ∧
  (∀ (c : Config) (s : Block c), ∃ (s1 s2 : Block c) (tr : List (TraceEvent c.width)), (c.traceEn = false → tr = s.trace) ∧
    exec (decodePair (BitVec.ofBool (s.q.getLsbD 0) ++ BitVec.ofBool s.qm1)) ⟨c, s⟩ = .next ⟨c, s1⟩ ∧
    exec .asr ⟨c, s1⟩ = .next ⟨c, s2⟩ ∧
    exec .iter ⟨c, s⟩ = .next ⟨c, { s2 with cnt := s2.cnt - 1, trace := tr }⟩)

/-- R72: one ITER, written out: the pair's action gives `P1`, the shift of `P1 ‖ Q ‖ QM1` gives `P`, `Q`, `QM1`, the counter goes
down, the two trace events are emitted if the trace is on; `M`, `PHASE`, `RES_*` stay. -/
def Obligations.IterActsShiftsAndCounts : Prop :=
  ∀ (c : Config) (s : Block c), ∃ (p1 p q : Bits c.width) (qm1 : Bool),
    p1 = (if s.q.getLsbD 0 = false ∧ s.qm1 = true then BitVec.ofInt c.width (S s.p + S s.m)
      else if s.q.getLsbD 0 = true ∧ s.qm1 = false then BitVec.ofInt c.width (S s.p - S s.m)
      else s.p) ∧
    (1 ≤ c.n → p ++ q ++ BitVec.ofBool qm1 = (p1 ++ s.q ++ BitVec.ofBool s.qm1).sshiftRight 1) ∧
    (c.n = 1 → p = p1 ∧ q = p1 ∧ qm1 = s.q.getLsbD 0) ∧
    (0 < U s.cnt → U (s.cnt - 1) = U s.cnt - 1) ∧
    exec .iter ⟨c, s⟩ = .next ⟨c, { s with
      p := p, q := q, qm1 := qm1, cnt := s.cnt - 1,
      trace := if c.traceEn then
          s.trace ++ [{ i := c.n - U s.cnt + 1, tag := .pre, p := p1, q := s.q, qm1 := s.qm1 },
            { i := c.n - U s.cnt + 1, tag := .post, p := p, q := q, qm1 := qm1 }]
        else s.trace }⟩ ∧
    (s.input.rst = false → s.phase = .run → 0 < U s.cnt → step ⟨c, s⟩ = tickOutcome (exec .iter ⟨c, s⟩))

/-- R77: FINISH copies `P ‖ Q` to the response and completes; the datapath stays; `S(P ‖ Q) = S(P) * 2^N + U(Q)`. -/
def Obligations.FinishAnswersProduct : Prop :=
  ∀ (c : Config) (s : Block c),
    exec .finish ⟨c, s⟩ = .next ⟨c, { s with resErr := .noError, resBits := s.p ++ s.q, resVal := s.p ++ s.q, phase := .done }⟩ ∧
    S (s.p ++ s.q) = S s.p * 2 ^ c.width + U s.q ∧
    (s.input.rst = false → s.phase = .run → U s.cnt = 0 → step ⟨c, s⟩ = tickOutcome (exec .finish ⟨c, s⟩))

/-! ### Encodings -/

/-- The encoder and the three decoders agree: every instruction an instance can be given, with every operand, decodes to itself
(ASR, which has ITER's selection word, to ITER). -/
def Obligations.DecodeOfEncode : Prop :=
  ∀ (c : Config) (i : Instr), c.WellFormed → i.wellFormed c = true →
    decode c (encode c i) = .ok i.selectedAs ∧ (i ≠ .asr → i.selectedAs = i)

/-- R47: no command word is reserved or illegal: each decodes to one of the four commands, with operands that fit, and has an
effect in every state. -/
def Obligations.NoCommandWordIsReserved : Prop :=
  ∀ (c : Config) (word : Bits (2 + c.w + c.w)),
    ((decodeCommand c word).wellFormed c = true) ∧
    (decodeCommand c word = .nop ∨ (∃ v, decodeCommand c word = .enc v) ∨
      (∃ bits, decodeCommand c word = .dec c.width bits) ∨ (∃ x y, decodeCommand c word = .mul x y)) ∧
    (∀ s : State, ∃ t, exec (decodeCommand c word) s = .next t)

/-- R46: bits a command does not use are ignored, and the encoder writes zeros in them. -/
def Obligations.UnusedCommandBitsAreIgnored : Prop :=
  ∀ (c : Config) (a a' b b' : Bits c.w),
    decodeCommand c (0#2 ++ a ++ b) = decodeCommand c (0#2 ++ a' ++ b') ∧
    decodeCommand c (1#2 ++ a ++ b) = decodeCommand c (1#2 ++ a ++ b') ∧
    (a.extractLsb' 0 c.width = a'.extractLsb' 0 c.width →
      decodeCommand c (2#2 ++ a ++ b) = decodeCommand c (2#2 ++ a' ++ b')) ∧
    encode c .nop = .command (0#2 ++ 0#c.w ++ 0#c.w) ∧
    (∀ v, encode c (.enc v) = .command (1#2 ++ BitVec.ofInt c.w v ++ 0#c.w)) ∧
    (∀ bits : Bits c.width, encode c (.dec c.width bits) = .command (2#2 ++ bits.setWidth c.w ++ 0#c.w))

/-- R53: the seven example words, at `N = 6`, `W = 12`, each encoded and decoded. -/
def Obligations.ExampleCommandWords : Prop :=
  encode .reference .nop = .command 0x0000000#26 ∧ decode .reference (.command 0x0000000#26) = .ok .nop ∧
  encode .reference (.enc (-5)) = .command 0x1FFB000#26 ∧ decode .reference (.command 0x1FFB000#26) = .ok (.enc (-5)) ∧
  encode .reference (.enc 32) = .command 0x1020000#26 ∧ decode .reference (.command 0x1020000#26) = .ok (.enc 32) ∧
  encode .reference (.dec 6 0b111011#6) = .command 0x203B000#26 ∧
  decode .reference (.command 0x203B000#26) = .ok (.dec 6 0b111011#6) ∧
  encode .reference (.mul (-3) 4) = .command 0x3FFD004#26 ∧ decode .reference (.command 0x3FFD004#26) = .ok (.mul (-3) 4) ∧
  encode .reference (.mul 3 (-4)) = .command 0x3003FFC#26 ∧ decode .reference (.command 0x3003FFC#26) = .ok (.mul 3 (-4)) ∧
  encode .reference (.mul (-32) 1) = .command 0x3FE0001#26 ∧ decode .reference (.command 0x3FE0001#26) = .ok (.mul (-32) 1)

/-- The opcode table's words of the pair and selection formats decode to their rows' instructions. -/
def Obligations.TableWordsDecodeToTheirRows : Prop :=
  decodeTableWord 2 0b00 = some .holdZeros ∧ decodeTableWord 2 0b01 = some .add ∧
  decodeTableWord 2 0b10 = some .sub ∧ decodeTableWord 2 0b11 = some .holdOnes ∧
  decodeTableWord 5 0b10000 = some .reset ∧ decodeTableWord 5 0b00110 = some .iter ∧
  decodeTableWord 5 0b00100 = some .finish ∧ decodeTableWord 5 0b00001 = some .accept ∧
  decodeTableWord 5 0b01001 = some .accept ∧ decodeTableWord 5 0b01101 = none ∧ decodeTableWord 5 0b01000 = none

/-- R50, R51: the codes of the errors and of the phases; the phase code 3 names no phase. -/
def Obligations.ErrorAndPhaseCodes : Prop :=
  errCode .noError = 0 ∧ errCode .range = 1 ∧ errCode .format = 2 ∧ errCode .config = 3 ∧
  phaseCode .idle = 0 ∧ phaseCode .run = 1 ∧ phaseCode .done = 2 ∧
  phaseOfCode 3 = none ∧ (∀ ph, phaseOfCode (phaseCode ph) = some ph ∧ phaseCode ph ≠ 3)

/-! ### The codec functions -/

/-- R40: a string of `n >= 1` bits as a number: the sign bit has weight `-2^(n-1)`, the others their unsigned weights; the same
as the unsigned number, less `2^n` if the leading bit is 1; the `2^n` strings represent the `2^n` integers of the range, each
once. -/
def Obligations.StringsRepresentRangeOnce : Prop :=
  ∀ n : Nat, 1 ≤ n →
    (∀ v : Bits n,
      S v = -(if v.getLsbD (n - 1) then 1 else 0) * 2 ^ (n - 1) + U (v.extractLsb' 0 (n - 1)) ∧
      S v = (if v.getLsbD (n - 1) then (U v : Int) - 2 ^ n else U v) ∧
      (v.getLsbD (n - 1) = true ↔ S v < 0) ∧ -2 ^ (n - 1) ≤ S v ∧ S v ≤ 2 ^ (n - 1) - 1) ∧
    (∀ z : Int, -2 ^ (n - 1) ≤ z → z ≤ 2 ^ (n - 1) - 1 → ∃! v : Bits n, S v = z)

/-- R60: Encode raises CONFIG, then RANGE, and else gives the `N`-bit string with the value modulo `2^N`; its corner cases; its
text has exactly `N` characters, all '0' or '1'. -/
def Obligations.EncodeGivesTwosComplement : Prop :=
  ∀ (value n : Int),
    (n ≤ 0 → encodeBits value n = .error .config) ∧
    (1 ≤ n → ¬ inRange n.toNat value → encodeBits value n = .error .range) ∧
    (1 ≤ n → inRange n.toNat value → ∃ v : Bits n.toNat, encodeBits value n = .ok v ∧ v = BitVec.ofInt n.toNat value ∧
      S v = value ∧ (U v : Int) = (if value < 0 then value + 2 ^ n.toNat else value) ∧
      (toText v).length = n.toNat ∧ ∀ ch ∈ toText v, ch = '0' ∨ ch = '1') ∧
    (1 ≤ n → encodeBits 0 n = .ok 0 ∧ encodeBits (-1) n = .ok (BitVec.allOnes n.toNat) ∧
      encodeBits (-2 ^ (n.toNat - 1)) n = .ok (BitVec.twoPow n.toNat (n.toNat - 1)) ∧
      encodeBits (2 ^ (n.toNat - 1) - 1) n = .ok (BitVec.twoPow n.toNat (n.toNat - 1) - 1) ∧
      encodeBits (2 ^ (n.toNat - 1)) n = .error .range ∧ encodeBits (-2 ^ (n.toNat - 1) - 1) n = .error .range) ∧
    encodeBits (-5) 6 = .ok 0b111011#6

/-- R61: Decode raises FORMAT on an empty string and on a character that is no binary digit, and else gives the signed value,
always in range; its corner cases. R102: on bit-vectors of positive width it never raises. -/
def Obligations.DecodeGivesSignedValue : Prop :=
  (∀ (n : Nat) (bits : Bits n),
    (n = 0 → decodeBits bits = .error .format) ∧
    (1 ≤ n → decodeBits bits = .ok (if bits.getLsbD (n - 1) then (U bits : Int) - 2 ^ n else U bits) ∧
      decodeBits bits = .ok (S bits) ∧ inRange n (S bits))) ∧
  decodeText [] = .error .format ∧
  (∀ cs : List Char, (∃ ch ∈ cs, ch ≠ '0' ∧ ch ≠ '1') → decodeText cs = .error .format) ∧
  (∀ (n : Nat) (bits : Bits n), decodeText (toText bits) = decodeBits bits) ∧
  (∀ n : Nat, 1 ≤ n → decodeBits (0 : Bits n) = .ok 0 ∧ decodeBits (BitVec.allOnes n) = .ok (-1) ∧
    decodeBits (BitVec.twoPow n (n - 1)) = .ok (-2 ^ (n - 1)) ∧
    decodeBits (BitVec.twoPow n (n - 1) - 1) = .ok (2 ^ (n - 1) - 1)) ∧
  decodeText ['1', '1', '1', '0', '1', '1'] = .ok (-5)

/-- R62: Encode on in-range integers and Decode on `N`-bit strings are inverse to each other. -/
def Obligations.CodecRoundTrips : Prop :=
  ∀ n : Int, 1 ≤ n →
    (∀ x, inRange n.toNat x → ∃ v : Bits n.toNat, encodeBits x n = .ok v ∧ decodeBits v = .ok x) ∧
    (∀ v : Bits n.toNat, ∃ x, inRange n.toNat x ∧ decodeBits v = .ok x ∧ encodeBits x n = .ok v)

/-- R63: inside the multiplier the unchecked Encode is `wrap_N` on the whole interval its argument can lie in, and the register
`M` may stand for the integer multiplicand; ADD and SUB wrap and raise nothing. -/
def Obligations.EncodeWrapsInsideMultiplier : Prop :=
  ∀ (n : Nat) (p : Bits n) (a : Int), 1 ≤ n → inRange n a →
    (-2 ^ n ≤ S p + a ∧ S p + a ≤ 2 ^ n - 2) ∧ (-2 ^ n + 1 ≤ S p - a ∧ S p - a ≤ 2 ^ n - 1) ∧
    (∀ z : Int, -2 ^ n ≤ z → z ≤ 2 ^ n - 1 →
      (BitVec.ofNat n (if z < 0 then z + 2 ^ n else z).toNat : Bits n) = BitVec.ofInt n z ∧
      0 ≤ (if z < 0 then z + 2 ^ n else z) ∧ (if z < 0 then z + 2 ^ n else z) < 2 ^ n) ∧
    (BitVec.ofInt n (S p + S (wrap n a)) : Bits n) = BitVec.ofInt n (S p + a) ∧
    (BitVec.ofInt n (S p - S (wrap n a)) : Bits n) = BitVec.ofInt n (S p - a) ∧
    (∀ (c : Config) (s : Block c), s.m = wrap c.width a →
      exec .add ⟨c, s⟩ = .next ⟨c, { s with p := BitVec.ofInt c.width (S s.p + a) }⟩ ∧
      exec .sub ⟨c, s⟩ = .next ⟨c, { s with p := BitVec.ofInt c.width (S s.p - a) }⟩)

/-- R66: an operand field holds an in-range integer exactly when its bits `W-1` to `N-1` are all equal, and then its low `N` bits
are the encoding; when `W = N` it always does. -/
def Obligations.RangeCheckInTermsOfBits : Prop :=
  ∀ (n w : Nat) (f : Bits w), 1 ≤ n → n ≤ w →
    (inRange n (S f) ↔ ∀ i, n - 1 ≤ i → i < w → f.getLsbD i = f.getLsbD (n - 1)) ∧
    (inRange n (S f) → encodeBits (S f) (n : Int) = .ok (f.extractLsb' 0 n)) ∧
    (w = n → inRange n (S f))

/-- R14: the combined register and the product are views: their slices are the registers. -/
def Obligations.CombinedRegisterIsAView : Prop :=
  ∀ (n : Nat) (p q : Bits n) (qm1 : Bool),
    (p ++ q ++ BitVec.ofBool qm1).extractLsb' (n + 1) n = p ∧ (p ++ q ++ BitVec.ofBool qm1).extractLsb' 1 n = q ∧
    (p ++ q ++ BitVec.ofBool qm1).getLsbD 0 = qm1 ∧
    (p ++ q).extractLsb' n n = p ∧ (p ++ q).extractLsb' 0 n = q ∧
    combined p q qm1 = p ++ q ++ BitVec.ofBool qm1 ∧ product p q = p ++ q

/-! ### Responses, outputs, frames -/

/-- R20: the outputs; none of them shows a datapath register. -/
def Obligations.OutputsAreFunctionsOfState : Prop :=
  ∀ (c : Config) (s : Block c),
    (s.cmdReady = true ↔ s.phase ≠ .run) ∧ (s.rspValid = true ↔ s.phase = .done) ∧
    s.rspErr = errCode s.resErr ∧ s.rspVal = s.resVal ∧ s.rspBits = s.resBits ∧
    (∀ (p q m : Bits c.width) (qm1 : Bool) (cnt : Bits c.cntWidth) (t : Block c),
      t = { s with p := p, q := q, qm1 := qm1, m := m, cnt := cnt } →
      t.cmdReady = s.cmdReady ∧ t.rspValid = s.rspValid ∧ t.rspErr = s.rspErr ∧ t.rspVal = s.rspVal ∧ t.rspBits = s.rspBits)

/-- R94: the response registers hold from the step that wrote them until the next completion or RESET, and stay valid until a
command other than NOP is accepted; a valid MUL makes them invalid without writing them, and FINISH replaces them. -/
def Obligations.ResponseHoldsUntilReplaced : Prop :=
  ∀ (c : Config) (s : Block c), s.input.rst = false →
    (s.phase = .run → 0 < U s.cnt → ∃ p q qm1 cnt trace, step ⟨c, s⟩ = .next ⟨c, { s with
      p := p, q := q, qm1 := qm1, cnt := cnt, trace := trace, host := s.host.tail }⟩) ∧
    (s.phase = .run → U s.cnt = 0 → step ⟨c, s⟩ = .next ⟨c, { s with
      resErr := .noError, resVal := s.p ++ s.q, resBits := s.p ++ s.q, phase := .done, host := s.host.tail }⟩) ∧
    (s.phase ≠ .run → s.input.cmdValid = false ∨ s.input.cmdOp = 0 → step ⟨c, s⟩ = .next ⟨c, { s with host := s.host.tail }⟩) ∧
    (∀ x y, s.AcceptingMul x y → ∃ p q qm1 m cnt, step ⟨c, s⟩ = .next ⟨c, { s with
      p := p, q := q, qm1 := qm1, m := m, cnt := cnt, phase := .run, host := s.host.tail }⟩) ∧
    (s.Accepting → (∃ v, s.command = .enc v) ∨ (∃ len bits, s.command = .dec len bits) ∨
        (∃ e, raisedBy c s.command = some e) →
      ∃ e val bits, step ⟨c, s⟩ = .next ⟨c, { s with
        resErr := e, resVal := val, resBits := bits, phase := .done, host := s.host.tail }⟩)

/-- R23: the access table, row by row: what each step may write, all else unchanged. -/
def Obligations.StepsWriteOnlyWhatTheTableSays : Prop :=
  ∀ (c : Config) (s : Block c),
    (∃ p q qm1 m cnt draws e val bits, exec .reset ⟨c, s⟩ = .next ⟨c, { s with
      p := p, q := q, qm1 := qm1, m := m, cnt := cnt, draws := draws, phase := .idle,
      resErr := e, resVal := val, resBits := bits }⟩) ∧
    exec .nop ⟨c, s⟩ = .next ⟨c, s⟩ ∧
    (∀ v, ∃ e val bits, exec (.enc v) ⟨c, s⟩ = .next ⟨c, { s with resErr := e, resVal := val, resBits := bits, phase := .done }⟩) ∧
    (∀ len str, ∃ e val bits, exec (.dec len str) ⟨c, s⟩ = .next ⟨c, { s with
      resErr := e, resVal := val, resBits := bits, phase := .done }⟩) ∧
    (∀ x y, raisedBy c (.mul x y) = none → ∃ p q qm1 m cnt, exec (.mul x y) ⟨c, s⟩ = .next ⟨c, { s with
      p := p, q := q, qm1 := qm1, m := m, cnt := cnt, phase := .run }⟩) ∧
    (∀ x y e, raisedBy c (.mul x y) = some e → ∃ e val bits, exec (.mul x y) ⟨c, s⟩ = .next ⟨c, { s with
      resErr := e, resVal := val, resBits := bits, phase := .done }⟩) ∧
    (∃ p q qm1 cnt trace, exec .iter ⟨c, s⟩ = .next ⟨c, { s with p := p, q := q, qm1 := qm1, cnt := cnt, trace := trace }⟩) ∧
    (∃ e val bits, exec .finish ⟨c, s⟩ = .next ⟨c, { s with resErr := e, resVal := val, resBits := bits, phase := .done }⟩)

/-- R5: TRACE_EN and the trace so far change nothing but the trace, in any number of steps. -/
def Obligations.TraceIsInert : Prop :=
  ∀ (c : Config) (s t : Block c) (en : Bool) (tr : List (TraceEvent c.width)) (k : Nat), runFor k ⟨c, s⟩ = .next ⟨c, t⟩ →
    ∃ tr', runFor k ⟨c.tracing en, s.withTrace en tr⟩ = .next ⟨c.tracing en, t.withTrace en tr'⟩

/-- R97: with TRACE_EN every ITER appends two events, the state after the pair's action and the state after the shift, numbered
by the iteration; nothing else emits, nor does ITER with TRACE_EN off; a successful MUL emits exactly `2N` events; no register
depends on TRACE_EN or on the trace so far. -/
def Obligations.TraceHoldsTwoEventsAnIteration : Prop :=
  (∀ (c : Config) (s : Block c), c.traceEn = true → ∃ p1 p q qm1,
    p1 = (if s.q.getLsbD 0 = false ∧ s.qm1 = true then BitVec.ofInt c.width (S s.p + S s.m)
      else if s.q.getLsbD 0 = true ∧ s.qm1 = false then BitVec.ofInt c.width (S s.p - S s.m)
      else s.p) ∧
    exec .iter ⟨c, s⟩ = .next ⟨c, { s with
      p := p, q := q, qm1 := qm1, cnt := s.cnt - 1,
      trace := s.trace ++ [{ i := c.n - U s.cnt + 1, tag := .pre, p := p1, q := s.q, qm1 := s.qm1 },
        { i := c.n - U s.cnt + 1, tag := .post, p := p, q := q, qm1 := qm1 }] }⟩) ∧
  (∀ (c : Config) (s : Block c) (i : Instr), i ≠ .iter ∨ c.traceEn = false → ∃ p q qm1 m cnt phase e val bits draws,
    exec i ⟨c, s⟩ = .next ⟨c, { s with
      p := p, q := q, qm1 := qm1, m := m, cnt := cnt, phase := phase, resErr := e, resVal := val, resBits := bits,
      draws := draws }⟩) ∧
  (∀ (c : Config) (s : Block c) (x y : Int), s.AcceptingMul x y → s.NoReset (c.width + 2) → c.traceEn = true →
    ∃ p q qm1 m cnt val events, events.length = 2 * c.width ∧
      runFor (c.width + 2) ⟨c, s⟩ = .next ⟨c, { s with
        p := p, q := q, qm1 := qm1, m := m, cnt := cnt, phase := .done, resErr := .noError, resVal := val, resBits := val,
        trace := s.trace ++ events, host := s.host.drop (c.width + 2) }⟩) ∧
  (∀ (c : Config) (s t : Block c) (i : Instr) (en : Bool) (tr : List (TraceEvent c.width)),
    exec i ⟨c, s⟩ = .next ⟨c, t⟩ →
    ∃ tr', exec i ⟨c.tracing en, s.withTrace en tr⟩ = .next ⟨c.tracing en, t.withTrace en tr'⟩)

/-- Nothing the datapath registers hold outside RUN is ever seen: two states that differ in them alone go through the same
phases, responses and traces for any number of steps, and agree in the datapath too as soon as a Multiply runs. ENC and DEC
answer the same whatever phase and response came before. (R21) -/
def Obligations.DatapathOutsideRunIsNeverSeen : Prop :=
  (∀ (c : Config) (s t : Block c) (k : Nat) (p q m : Bits c.width) (qm1 : Bool) (cnt : Bits c.cntWidth),
    s.phase ≠ .run → runFor k ⟨c, s⟩ = .next ⟨c, t⟩ →
    ∃ p' q' qm1' m' cnt',
      runFor k ⟨c, { s with p := p, q := q, qm1 := qm1, m := m, cnt := cnt }⟩ =
        .next ⟨c, { t with p := p', q := q', qm1 := qm1', m := m', cnt := cnt' }⟩ ∧
      (t.phase = .run → p' = t.p ∧ q' = t.q ∧ qm1' = t.qm1 ∧ m' = t.m ∧ cnt' = t.cnt)) ∧
  (∀ (c : Config) (s : Block c) (ph : Phase) (e : Err) (val bits : Bits (c.width + c.width)) (v : Int),
    exec (.enc v) ⟨c, { s with phase := ph, resErr := e, resVal := val, resBits := bits }⟩ = exec (.enc v) ⟨c, s⟩) ∧
  (∀ (c : Config) (s : Block c) (ph : Phase) (e : Err) (val bits : Bits (c.width + c.width)) (len : Nat) (str : Bits len),
    exec (.dec len str) ⟨c, { s with phase := ph, resErr := e, resVal := val, resBits := bits }⟩ = exec (.dec len str) ⟨c, s⟩)

/-! ### Invariants -/

/-- R15: every step keeps the counter in range while a Multiply runs; it is only ever decremented when it is not zero, so it
never wraps. -/
def Obligations.EveryStepKeepsCounterInRange : Prop :=
  ∀ (c : Config) (s t : Block c), s.CounterInRange → step ⟨c, s⟩ = .next ⟨c, t⟩ → t.CounterInRange

/-- The invariant holds in the state after reset. -/
def Obligations.CounterInRangeAtReset : Prop := State.reset.block.CounterInRange

/-- The parameters of an instance never change. -/
def Obligations.ParametersNeverChange : Prop :=
  ∀ s t : State, step s = .next t → t.cfg = s.cfg

/-! ### Multiply -/

/-- R79, R109: a MUL that passes its checks loads the counter with `N`; a Multiply in progress always finishes: the counter goes
down by one a step, no other step is selected, FINISH comes at 0, and the response is no error, unless the host resets. -/
def Obligations.RunAlwaysFinishesWithoutError : Prop :=
  (∀ (c : Config) (s : Block c) (x y : Int), s.AcceptingMul x y → ∃ t : Block c, step ⟨c, s⟩ = .next ⟨c, t⟩ ∧
    t.phase = .run ∧ U t.cnt = c.width) ∧
  ∀ (c : Config) (s : Block c), s.phase = .run →
    (∀ k, k ≤ U s.cnt → s.NoReset (k + 1) → ∃ t : Block c, runFor k ⟨c, s⟩ = .next ⟨c, t⟩ ∧ t.phase = .run ∧ U t.cnt = U s.cnt - k ∧
      t.selected = some (if k < U s.cnt then .iter else .finish)) ∧
    (s.NoReset (U s.cnt + 1) → ∃ t : Block c, runFor (U s.cnt + 1) ⟨c, s⟩ = .next ⟨c, t⟩ ∧ t.phase = .done ∧ t.resErr = .noError)

/-- R25, R129: the state after each step of a MUL: RUN, the counter counting down from `N`, `M` the multiplicand; after `N + 2`
steps DONE with `P ‖ Q` as the response. ENC, DEC and erroring commands answer in one step; NOP takes one and answers nothing. -/
def Obligations.MulTakesWidthPlusTwoSteps : Prop :=
  (∀ (c : Config) (s : Block c) (x y : Int), s.AcceptingMul x y →
    (∀ k, k ≤ c.width → s.NoReset (k + 1) → ∃ p q qm1 m cnt trace, S m = x ∧ U cnt = c.width - k ∧
      runFor (k + 1) ⟨c, s⟩ = .next ⟨c, { s with
        p := p, q := q, qm1 := qm1, m := m, cnt := cnt, phase := .run, trace := trace, host := s.host.drop (k + 1) }⟩) ∧
    (s.NoReset (c.width + 2) → ∃ p q qm1 m cnt trace,
      runFor (c.width + 2) ⟨c, s⟩ = .next ⟨c, { s with
        p := p, q := q, qm1 := qm1, m := m, cnt := cnt, phase := .done,
        resErr := .noError, resVal := p ++ q, resBits := p ++ q, trace := trace,
        host := s.host.drop (c.width + 2) }⟩)) ∧
  (∀ (c : Config) (s : Block c), s.Accepting →
    (s.command = .nop → step ⟨c, s⟩ = .next ⟨c, { s with host := s.host.tail }⟩) ∧
    ((∃ v, s.command = .enc v) ∨ (∃ len bits, s.command = .dec len bits) ∨ (∃ e, raisedBy c s.command = some e) →
      ∃ t : Block c, step ⟨c, s⟩ = .next ⟨c, t⟩ ∧ t.rspValid = true))

/-- R78: the machine and the function agree. If Multiply raises, the ACCEPT step alone runs and answers the error. Otherwise the
machine performs LOAD, `N` ITER and one FINISH, and answers the function's product, its bit-string and its trace. -/
def Obligations.MachineAndFunctionAgree : Prop :=
  ∀ (c : Config) (s : Block c) (x y : Int), s.Accepting → s.command = .mul x y →
    s.selected = some .accept ∧
    (∀ e, multiply x y c.n = .error e → step ⟨c, s⟩ = .next ⟨c, { s with
      resErr := e, resVal := 0, resBits := 0, phase := .done, host := s.host.tail }⟩) ∧
    (∀ (pr : Int) (bits : Bits (c.width + c.width)), multiply x y c.n = .ok (pr, bits) →
      s.NoReset (c.width + 2) →
      (∀ k, k < c.width → ∃ t : Block c, runFor (k + 1) ⟨c, s⟩ = .next ⟨c, t⟩ ∧ t.selected = some .iter) ∧
      (∃ t : Block c, runFor (c.width + 1) ⟨c, s⟩ = .next ⟨c, t⟩ ∧ t.selected = some .finish) ∧
      S bits = pr ∧
      ∃ p q qm1 m cnt, runFor (c.width + 2) ⟨c, s⟩ = .next ⟨c, { s with
        p := p, q := q, qm1 := qm1, m := m, cnt := cnt, phase := .done,
        resErr := .noError, resVal := bits, resBits := bits,
        trace := if c.traceEn then s.trace ++ boothTrace x c.width 1 (boothStart c.width y) else s.trace,
        host := s.host.drop (c.width + 2) }⟩)

/-- R80: the product law, for every width and every in-range pair: the most negative multiplicand acts as `+2^(N-1)`, every other
as itself; so the product is `a * b` exactly when `a` is not the most negative value or `b` is 0. -/
def Obligations.ProductLaw : Prop :=
  ∀ a b n : Int, 1 ≤ n → inRange n.toNat a → inRange n.toNat b →
    ∃ a' : Int, a' = (if a = -2 ^ (n.toNat - 1) then 2 ^ (n.toNat - 1) else a) ∧
      multiply a b n = .ok (a' * b, BitVec.ofInt (n.toNat + n.toNat) (a' * b)) ∧
      (a' * b = a * b ↔ a ≠ -2 ^ (n.toNat - 1) ∨ b = 0) ∧
      (a = -2 ^ (n.toNat - 1) → a' * b = -(a * b))

/-- R81: the loop invariant, for a multiplicand other than the most negative value: LOAD's values meet it at `k = 0`; every ITER
takes it from `k` to `k + 1`; it bounds the accumulator, so that neither ADD nor SUB overflows; at `k = N` it says that `P ‖ Q` is
the product. -/
def Obligations.LoopInvariantHolds : Prop :=
  ∀ a b : Int,
    (∀ n : Nat, 1 ≤ n → inRange n a → inRange n b → LoopInvariant a b 0 (0 : Bits n) (wrap n b) false) ∧
    (∀ (c : Config) (s : Block c), 1 ≤ c.n → inRange c.width a → inRange c.width b → a ≠ -2 ^ (c.width - 1) →
      s.m = wrap c.width a → 0 < U s.cnt → U s.cnt ≤ c.width →
      LoopInvariant a b (c.width - U s.cnt) s.p s.q s.qm1 →
      ∃ p q qm1 cnt trace, U cnt = U s.cnt - 1 ∧ LoopInvariant a b (c.width - U cnt) p q qm1 ∧
        exec .iter ⟨c, s⟩ = .next ⟨c, { s with p := p, q := q, qm1 := qm1, cnt := cnt, trace := trace }⟩) ∧
    (∀ (n k : Nat) (p q : Bits n) (qm1 : Bool), 1 ≤ n → inRange n a → inRange n b → a ≠ -2 ^ (n - 1) → k ≤ n →
      LoopInvariant a b k p q qm1 →
      |S p| ≤ |a| ∧
      (k < n → q.getLsbD 0 = false → qm1 = true → inRange n (S p + a)) ∧
      (k < n → q.getLsbD 0 = true → qm1 = false → inRange n (S p - a)) ∧
      (k = n → S (p ++ q) = a * b))

/-- R82: zero absorption for every in-range operand; symmetry exactly when neither or both operands are the most negative value or
one is 0; the source's sign literals, and its boundary literal, which does not hold. -/
def Obligations.ProductSymmetryAndZeroLaws : Prop :=
  (∀ a b n : Int, 1 ≤ n → inRange n.toNat a → inRange n.toNat b →
    multiply a 0 n = .ok (0, 0) ∧ multiply 0 b n = .ok (0, 0) ∧
    (multiply a b n = multiply b a n ↔
      ((a = -2 ^ (n.toNat - 1) ↔ b = -2 ^ (n.toNat - 1)) ∨ a = 0 ∨ b = 0))) ∧
  multiply (-3) 4 6 = .ok (-12, 0b111111110100#12) ∧ multiply (-3) (-4) 6 = .ok (12, 0b000000001100#12) ∧
  multiply 3 (-4) 6 = .ok (-12, 0b111111110100#12) ∧ multiply (-32) 1 6 = .ok (32, 0b000000100000#12) ∧
  multiply 1 (-32) 6 = .ok (-32, 0b111111100000#12)

/-- R123: a MUL whose multiplicand is the most negative value and whose multiplier is not 0 raises no error and answers
`2^(N-1) * y`, the negation of the true product; a MUL with any other multiplicand answers the true product. -/
def Obligations.MostNegativeMultiplicandNegatesProduct : Prop :=
  ∀ (c : Config) (s : Block c) (x y : Int), s.AcceptingMul x y → s.NoReset (c.width + 2) →
    ∃ t : Block c, runFor (c.width + 2) ⟨c, s⟩ = .next ⟨c, t⟩ ∧ t.rspValid = true ∧ t.rspErr = 0 ∧
      (x = -2 ^ (c.width - 1) → S t.rspVal = 2 ^ (c.width - 1) * y ∧ S t.rspVal = -(x * y) ∧
        (y ≠ 0 → S t.rspVal ≠ x * y)) ∧
      (x ≠ -2 ^ (c.width - 1) → S t.rspVal = x * y)

/-- R127: `N = 1`: the four products, and ENC and DEC exact. -/
def Obligations.WidthOneResults : Prop :=
  multiply (-1) (-1) 1 = .ok (-1, 0b11#2) ∧ multiply (-1) 0 1 = .ok (0, 0) ∧ multiply 0 (-1) 1 = .ok (0, 0) ∧
  multiply 0 0 1 = .ok (0, 0) ∧ multiply 1 0 1 = .error .range ∧
  encodeBits 0 1 = .ok 0 ∧ encodeBits (-1) 1 = .ok 1 ∧ encodeBits 1 1 = .error .range ∧
  decodeBits (0 : Bits 1) = .ok 0 ∧ decodeBits (1 : Bits 1) = .ok (-1)
end

