-- ==== Sys2Proof/Laws/Operands.lean ====
section
/-! SUPPORT. The notation's arithmetic: `wrap`, `S` and the range `inRange`; the combined register, its shift, the product. -/

namespace Sys2Proof

theorem two_pow_pred {n : Nat} (hn : 1 ≤ n) : (2 : Int) ^ n = 2 * 2 ^ (n - 1) := by
  conv_lhs => rw [show n = (n - 1) + 1 by omega, pow_succ]
  ring

/-- An in-range integer survives the wrap. -/
theorem S_wrap {n : Nat} {z : Int} (hn : 1 ≤ n) (h : inRange n z) : S (wrap n z) = z := by
  have h2 := two_pow_pred hn
  have h5 : ((2 ^ n : Nat) : Int) = 2 * 2 ^ (n - 1) := by push_cast; exact h2
  obtain ⟨h3, h4⟩ := h
  rw [S, BitVec.toInt_ofInt]
  apply Int.bmod_eq_of_le <;> rw [h5] <;> omega

/-- A vector's signed value is in range. -/
theorem inRange_S {n : Nat} (hn : 1 ≤ n) (v : Bits n) : inRange n (S v) := by
  have h0 := BitVec.le_two_mul_toInt (x := v)
  have h1 := BitVec.two_mul_toInt_lt (x := v)
  have h2 := two_pow_pred hn
  constructor <;> rw [S] <;> omega

/-- The vector of a signed value is the vector. -/
theorem wrap_S {n : Nat} (v : Bits n) : wrap n (S v) = v := BitVec.ofInt_toInt

theorem inRange_wide {n : Nat} {z : Int} (hn : 1 ≤ n) (h : inRange n z) : -2 ^ n ≤ z ∧ z ≤ 2 ^ n - 1 := by
  have h2 := two_pow_pred hn
  have : (0 : Int) < 2 ^ (n - 1) := by positivity
  obtain ⟨h3, h4⟩ := h
  constructor <;> omega

/-- "If negative, add `2^n`": the unsigned number whose digits are the vector `wrap_n(z)`. -/
theorem ofNat_unsigned {n : Nat} {z : Int} (h1 : -2 ^ n ≤ z) :
    (BitVec.ofNat n (if z < 0 then z + 2 ^ n else z).toNat : Bits n) = wrap n z := by
  have h5 : ((2 ^ n : Nat) : Int) = 2 ^ n := by push_cast; rfl
  apply BitVec.eq_of_toInt_eq
  rw [BitVec.toInt_ofInt, BitVec.toInt_ofNat', Int.toNat_of_nonneg (by split_ifs <;> omega)]
  split_ifs
  · rw [← h5, Int.add_bmod_right]
  · rfl

/-- The wrapped sum is the sum of vectors. -/
theorem wrap_add {n : Nat} (p m : Bits n) : wrap n (S p + S m) = p + m := by
  rw [wrap, BitVec.ofInt_add, BitVec.ofInt_toInt, BitVec.ofInt_toInt]

/-- The wrapped difference is the difference of vectors. -/
theorem wrap_sub {n : Nat} (p m : Bits n) : wrap n (S p - S m) = p - m := by
  rw [wrap, sub_eq_add_neg, BitVec.ofInt_add, BitVec.ofInt_neg, BitVec.ofInt_toInt, BitVec.ofInt_toInt, BitVec.sub_eq_add_neg]

/-- A register's value modulo `2^n` may stand for an integer in a sum that is wrapped. -/
theorem wrap_add_wrap {n : Nat} (z a : Int) : wrap n (z + S (wrap n a)) = wrap n (z + a) := by
  rw [wrap, BitVec.ofInt_add, BitVec.ofInt_toInt, ← BitVec.ofInt_add]

theorem wrap_sub_wrap {n : Nat} (z a : Int) : wrap n (z - S (wrap n a)) = wrap n (z - a) := by
  rw [wrap, sub_eq_add_neg, BitVec.ofInt_add, BitVec.ofInt_neg, BitVec.ofInt_toInt, ← BitVec.ofInt_neg, ← BitVec.ofInt_add,
    ← sub_eq_add_neg]

theorem lowBits_zext {n w : Nat} (h : n ≤ w) (v : Bits n) : lowBits n (zext w v) = v := by
  refine BitVec.eq_of_getLsbD_eq fun i hi => ?_
  simp only [BitVec.getLsbD_extractLsb', hi, decide_true, Bool.true_and, BitVec.getLsbD_setWidth, Nat.zero_add,
    show i < w by omega]

/-! ### The combined register -/

theorem getLsbD_combined {n : Nat} (p q : Bits n) (b : Bool) (i : Nat) :
    (combined p q b).getLsbD i =
      if i = 0 then b else if i < n + 1 then q.getLsbD (i - 1) else p.getLsbD (i - 1 - n) := by
  simp only [combined, BitVec.getLsbD_append, BitVec.getLsbD_ofBool]
  split_ifs <;> first | omega | rfl | simp_all

/-- A combined register is its three slices. -/
theorem combined_slices {n : Nat} (c : Bits (n + n + 1)) : combined (combinedP c) (combinedQ c) (combinedQM1 c) = c := by
  refine BitVec.eq_of_getLsbD_eq fun i hi => ?_
  rw [getLsbD_combined]
  simp only [combinedP, combinedQ, combinedQM1, BitVec.getLsbD_extractLsb']
  split_ifs with h1 h2
  · rw [h1]
  · simp only [show i - 1 < n by omega, decide_true, Bool.true_and]; congr 1; omega
  · simp only [show i - 1 - n < n by omega, decide_true, Bool.true_and]; congr 1; omega

/-- The shifted register, bit by bit. -/
theorem getLsbD_shiftCombined {n : Nat} (p q : Bits n) (b : Bool) (hn : 1 ≤ n) (i : Nat) (hi : i < n + n + 1) :
    (shiftCombined (combined p q b)).getLsbD i =
      if i = n + n then p.getLsbD (n - 1) else if i < n then q.getLsbD i else p.getLsbD (i - n) := by
  rw [shiftCombined, BitVec.getLsbD_sshiftRight, BitVec.msb_eq_getLsbD_last, getLsbD_combined, getLsbD_combined]
  simp only [show ¬ (n + n + 1 ≤ i) by omega, decide_false, Bool.not_false, Bool.true_and]
  split_ifs <;> first | omega | (congr 1; omega)

/-- The shifted register's `P` is `P` shifted. -/
theorem combinedP_shift {n : Nat} (p q : Bits n) (b : Bool) (hn : 1 ≤ n) :
    combinedP (shiftCombined (combined p q b)) = p.sshiftRight 1 := by
  refine BitVec.eq_of_getLsbD_eq fun i hi => ?_
  simp only [combinedP, BitVec.getLsbD_extractLsb', hi, decide_true, Bool.true_and]
  rw [getLsbD_shiftCombined p q b hn _ (by omega), BitVec.getLsbD_sshiftRight, BitVec.msb_eq_getLsbD_last]
  simp only [show ¬ (n ≤ i) by omega, decide_false, Bool.not_false, Bool.true_and]
  split_ifs <;> first | omega | rfl | (congr 1; omega)

/-- The shifted register's `Q` is `Q` shifted, `P[0]` coming in at the top. -/
theorem combinedQ_shift {n : Nat} (p q : Bits n) (b : Bool) (hn : 1 ≤ n) :
    combinedQ (shiftCombined (combined p q b)) =
      (q >>> 1) ||| (if p.getLsbD 0 then BitVec.twoPow n (n - 1) else 0) := by
  refine BitVec.eq_of_getLsbD_eq fun i hi => ?_
  simp only [combinedQ, BitVec.getLsbD_extractLsb', hi, decide_true, Bool.true_and]
  rw [getLsbD_shiftCombined p q b hn _ (by omega), BitVec.getLsbD_or, BitVec.getLsbD_ushiftRight]
  by_cases h : i = n - 1
  · subst h
    rw [if_neg (by omega), if_neg (by omega), BitVec.getLsbD_of_ge q _ (by omega), show 1 + (n - 1) - n = 0 by omega]
    cases hp : p.getLsbD 0
    · simp
    · simp [BitVec.getLsbD_twoPow]; omega
  · rw [if_neg (by omega), if_pos (by omega)]
    cases hp : p.getLsbD 0
    · simp
    · simp [BitVec.getLsbD_twoPow]; omega

/-- The shifted register's `QM1` is `Q[0]`. -/
theorem combinedQM1_shift {n : Nat} (p q : Bits n) (b : Bool) (hn : 1 ≤ n) :
    combinedQM1 (shiftCombined (combined p q b)) = q.getLsbD 0 := by
  rw [combinedQM1, getLsbD_shiftCombined p q b hn _ (by omega), if_neg (by omega), if_pos (by omega)]

/-- The product after the shift is the product shifted. -/
theorem product_shift {n : Nat} (p q : Bits n) (b : Bool) (hn : 1 ≤ n) :
    product (combinedP (shiftCombined (combined p q b))) (combinedQ (shiftCombined (combined p q b))) =
      (product p q).sshiftRight 1 := by
  refine BitVec.eq_of_getLsbD_eq fun i hi => ?_
  rw [product, product, BitVec.getLsbD_append, BitVec.getLsbD_sshiftRight, BitVec.msb_eq_getLsbD_last]
  simp only [combinedP, combinedQ, BitVec.getLsbD_extractLsb', BitVec.getLsbD_append]
  simp only [show ¬ (n + n ≤ i) by omega, decide_false, Bool.not_false, Bool.true_and]
  by_cases h1 : i < n
  · rw [if_pos h1]
    simp only [h1, decide_true, Bool.true_and]
    rw [getLsbD_shiftCombined _ _ _ hn _ (by omega)]
    split_ifs <;> first | omega | rfl
  · rw [if_neg h1]
    simp only [show i - n < n by omega, decide_true, Bool.true_and]
    rw [getLsbD_shiftCombined _ _ _ hn _ (by omega)]
    split_ifs <;> first | omega | rfl | (congr 1; omega)

/-- A shift by one place halves the signed value, rounding down. -/
theorem S_sshiftRight_one {n : Nat} (v : Bits n) : S (v.sshiftRight 1) = S v / 2 := by
  rw [S, BitVec.toInt_sshiftRight, Int.shiftRight_eq_div_pow]; norm_num

/-- The signed value of the product view. -/
theorem S_product {n : Nat} (p q : Bits n) : S (product p q) = S p * 2 ^ n + U q := by
  rcases Nat.eq_zero_or_pos n with rfl | hn
  · simp [BitVec.toInt_zero_length, Subsingleton.elim q 0]
  rw [product, S, S, U, BitVec.toInt_eq_msb_cond, BitVec.toInt_eq_msb_cond, BitVec.msb_append, BitVec.toNat_append,
    ← Nat.shiftLeft_add_eq_or_of_lt q.isLt, Nat.shiftLeft_eq]
  simp only [show n ≠ 0 by omega, if_false]
  split_ifs <;> push_cast <;> ring

end Sys2Proof
end

