-- ==== Sys2Proof/Laws/Codec.lean ====
section
/-! SUPPORT. When Encode and Decode answer, and what; bit-strings as text. -/

namespace Sys2Proof

theorem S_wrap_of_fitsField {w : Nat} {z : Int} (h : fitsField w z = true) : S (wrap w z) = z := by
  unfold fitsField at h
  split_ifs at h with hw
  · subst hw
    rw [of_decide_eq_true h, S, BitVec.toInt_zero_length]
  · exact S_wrap (by omega) (of_decide_eq_true h)

theorem fitsField_S {w : Nat} (v : Bits w) : fitsField w (S v) = true := by
  unfold fitsField
  split_ifs with h
  · subst h; exact decide_eq_true (BitVec.toInt_zero_length v)
  · exact decide_eq_true (inRange_S (by omega) v)

namespace Machine

theorem encodeBits_ok {z n : Int} (hn : 1 ≤ n) (h : inRange n.toNat z) : encodeBits z n = .ok (wrap n.toNat z) := by
  have hw := inRange_wide (show 1 ≤ n.toNat by omega) h
  rw [encodeBits, if_neg (show ¬ n ≤ 0 by omega), ofNat_unsigned hw.1, if_neg (not_not.mpr h)]

theorem encodeBits_range {z n : Int} (hn : 1 ≤ n) (h : ¬ inRange n.toNat z) : encodeBits z n = .error .range := by
  rw [encodeBits, if_neg (show ¬ n ≤ 0 by omega), if_pos h]

theorem decodeBits_ok {n : Nat} (hn : 1 ≤ n) (v : Bits n) : decodeBits v = .ok (S v) := by
  rw [decodeBits, if_neg (show ¬ n = 0 by omega), S, BitVec.toInt_eq_msb_cond, BitVec.msb_eq_getLsbD_last]
  split_ifs <;> simp

theorem toText_length {n : Nat} (v : Bits n) : (toText v).length = n := by simp [toText]

theorem toText_digit {n : Nat} (v : Bits n) : ∀ ch ∈ toText v, ch = '0' ∨ ch = '1' := by
  intro ch h
  simp only [toText, List.mem_map] at h
  obtain ⟨k, -, rfl⟩ := h
  split_ifs <;> simp

theorem textValue_append (a b : List Char) : textValue (a ++ b) = textValue a * 2 ^ b.length + textValue b := by
  induction b using List.reverseRecOn with
  | nil => simp [textValue]
  | append_singleton l x ih =>
    have h : ∀ l x, textValue (l ++ [x]) = 2 * textValue l + if x = '1' then 1 else 0 := by intro l x; simp [textValue]
    rw [← List.append_assoc, h, ih, h, List.length_append, List.length_singleton, pow_succ]
    ring

/-- The text of a vector denotes its unsigned value. -/
theorem textValue_toText {n : Nat} (v : Bits n) : textValue (toText v) = U v := by
  have key : ∀ k, k ≤ n →
      textValue ((List.range k).map fun k => if v.getMsbD k then '1' else '0') = v.toNat >>> (n - k) := by
    intro k
    induction k with
    | zero =>
      intro _
      rw [Nat.shiftRight_eq_div_pow, Nat.div_eq_of_lt (by simpa using v.isLt)]
      rfl
    | succ k ih =>
      intro hk
      rw [List.range_succ, List.map_append, textValue_append, ih (by omega)]
      have e : v.toNat >>> (n - k) = (v.toNat >>> (n - (k + 1))) / 2 := by
        rw [← Nat.shiftRight_succ]; congr 1; omega
      have e2 : v.getMsbD k = decide ((v.toNat >>> (n - (k + 1))) % 2 = 1) := by
        rw [BitVec.getMsbD_eq_getLsbD]
        simp only [show k < n by omega, decide_true, Bool.true_and]
        rw [← BitVec.testBit_toNat, Nat.testBit, Nat.one_and_eq_mod_two, show n - 1 - k = n - (k + 1) by omega]
        rcases Nat.mod_two_eq_zero_or_one (v.toNat >>> (n - (k + 1))) with h | h <;> rw [h] <;> rfl
      rw [e]
      simp only [List.map_cons, List.map_nil, e2]
      generalize v.toNat >>> (n - (k + 1)) = x
      by_cases h : x % 2 = 1 <;> simp [textValue, h] <;> omega
  simpa [toText] using key n le_rfl

end Machine

end Sys2Proof
end

