-- ==== Sys2Proof/Laws/Decode.lean ====
section
/-! SUPPORT. The fields of a command word, and what each decoder can answer. -/

namespace Sys2Proof

open Machine

@[simp] theorem commandOp_append {w : Nat} (op : Bits 2) (a b : Bits w) : commandOp (op ++ a ++ b) = op := by
  refine BitVec.eq_of_getLsbD_eq fun i hi => ?_
  simp only [commandOp, BitVec.getLsbD_extractLsb', BitVec.getLsbD_append, hi, decide_true, Bool.true_and]
  rw [if_neg (by omega), if_neg (by omega)]
  congr 1
  omega

@[simp] theorem commandA_append {w : Nat} (op : Bits 2) (a b : Bits w) : commandA (op ++ a ++ b) = a := by
  refine BitVec.eq_of_getLsbD_eq fun i hi => ?_
  simp only [commandA, BitVec.getLsbD_extractLsb', BitVec.getLsbD_append, hi, decide_true, Bool.true_and]
  rw [if_neg (by omega), if_pos (by omega)]
  congr 1
  omega

@[simp] theorem commandB_append {w : Nat} (op : Bits 2) (a b : Bits w) : commandB (op ++ a ++ b) = b := by
  refine BitVec.eq_of_getLsbD_eq fun i hi => ?_
  simp only [commandB, BitVec.getLsbD_extractLsb', BitVec.getLsbD_append, hi, decide_true, Bool.true_and]
  rw [if_pos (by omega)]
  congr 1
  omega

/-- A map of the four answers is the answer of the map. -/
theorem onCommand_map {α β : Type} (f : α → β) (c : Config) (word : Bits (2 + c.w + c.w)) (nop : α) (enc : Int → α)
    (dec : (len : Nat) → Bits len → α) (mul : Int → Int → α) :
    f (onCommand c word nop enc dec mul) =
      onCommand c word (f nop) (fun v => f (enc v)) (fun len bits => f (dec len bits)) (fun x y => f (mul x y)) := by
  unfold onCommand
  split_ifs <;> rfl

/-- A map of the four answers is the answer of the map. -/
theorem onPair_map {α β : Type} (f : α → β) (q0 qm1 : Bool) (holdZeros add sub holdOnes : α) :
    f (onPair q0 qm1 holdZeros add sub holdOnes) =
      onPair q0 qm1 (f holdZeros) (f add) (f sub) (f holdOnes) := by
  cases q0 <;> cases qm1 <;> rfl

/-- Every 2-bit code is one of the four. -/
theorem twoBits_cases (op : Bits 2) : op = 0 ∨ op = 1 ∨ op = 2 ∨ op = 3 := by
  revert op; decide

@[simp] theorem phaseOfCode_phaseCode (ph : Phase) : phaseOfCode (phaseCode ph) = some ph := by
  cases ph <;> rfl

/-- What the table of R90 can select, and when. -/
theorem selectStep_cases (rst : Bool) (ph : Phase) (cntNonzero cmdValid : Bool) :
    (rst = true ∧ selectStep rst ph cntNonzero cmdValid = some .reset) ∨
    (rst = false ∧ ph = .run ∧ cntNonzero = true ∧ selectStep rst ph cntNonzero cmdValid = some .iter) ∨
    (rst = false ∧ ph = .run ∧ cntNonzero = false ∧ selectStep rst ph cntNonzero cmdValid = some .finish) ∨
    (rst = false ∧ ph ≠ .run ∧ cmdValid = true ∧ selectStep rst ph cntNonzero cmdValid = some .accept) ∨
    (rst = false ∧ ph ≠ .run ∧ cmdValid = false ∧ selectStep rst ph cntNonzero cmdValid = none) := by
  cases rst <;> cases ph <;> cases cntNonzero <;> cases cmdValid <;> simp [selectStep]

/-- The selection word of a state decodes to the step R90 selects. -/
theorem decodeSelection_selectionWord {c : Config} (s : Block c) :
    decodeSelection s.selectionWord =
      match s.selected with
      | some i => .ok i
      | none => .error .noStep := by
  unfold Block.selectionWord Block.selected
  generalize s.input.rst = r
  generalize s.phase = ph
  generalize decide (0 < U s.cnt) = z
  generalize s.input.cmdValid = v
  cases r <;> cases ph <;> cases z <;> cases v <;> rfl

end Sys2Proof
end

