-- ==== Sys2Proof/Laws/State.lean ====
section
/-! SUPPORT. What each named update of the block does to each field: one lemma a field, all true by rfl. -/

namespace Sys2Proof.Machine

@[simp] theorem Block.tick_p {c : Config} (s : Block c) : s.tick.p = s.p := rfl
@[simp] theorem Block.tick_q {c : Config} (s : Block c) : s.tick.q = s.q := rfl
@[simp] theorem Block.tick_qm1 {c : Config} (s : Block c) : s.tick.qm1 = s.qm1 := rfl
@[simp] theorem Block.tick_m {c : Config} (s : Block c) : s.tick.m = s.m := rfl
@[simp] theorem Block.tick_cnt {c : Config} (s : Block c) : s.tick.cnt = s.cnt := rfl
@[simp] theorem Block.tick_phase {c : Config} (s : Block c) : s.tick.phase = s.phase := rfl
@[simp] theorem Block.tick_resErr {c : Config} (s : Block c) : s.tick.resErr = s.resErr := rfl
@[simp] theorem Block.tick_resVal {c : Config} (s : Block c) : s.tick.resVal = s.resVal := rfl
@[simp] theorem Block.tick_resBits {c : Config} (s : Block c) : s.tick.resBits = s.resBits := rfl
@[simp] theorem Block.tick_host {c : Config} (s : Block c) : s.tick.host = s.host.tail := rfl
@[simp] theorem Block.tick_trace {c : Config} (s : Block c) : s.tick.trace = s.trace := rfl
@[simp] theorem Block.tick_draws {c : Config} (s : Block c) : s.tick.draws = s.draws := rfl

@[simp] theorem Block.complete_p {c : Config} (s : Block c) (e : Err) (val bits : Bits (c.width + c.width)) :
    (s.complete e val bits).p = s.p := rfl
@[simp] theorem Block.complete_q {c : Config} (s : Block c) (e : Err) (val bits : Bits (c.width + c.width)) :
    (s.complete e val bits).q = s.q := rfl
@[simp] theorem Block.complete_qm1 {c : Config} (s : Block c) (e : Err) (val bits : Bits (c.width + c.width)) :
    (s.complete e val bits).qm1 = s.qm1 := rfl
@[simp] theorem Block.complete_m {c : Config} (s : Block c) (e : Err) (val bits : Bits (c.width + c.width)) :
    (s.complete e val bits).m = s.m := rfl
@[simp] theorem Block.complete_cnt {c : Config} (s : Block c) (e : Err) (val bits : Bits (c.width + c.width)) :
    (s.complete e val bits).cnt = s.cnt := rfl
@[simp] theorem Block.complete_phase {c : Config} (s : Block c) (e : Err) (val bits : Bits (c.width + c.width)) :
    (s.complete e val bits).phase = .done := rfl
@[simp] theorem Block.complete_resErr {c : Config} (s : Block c) (e : Err) (val bits : Bits (c.width + c.width)) :
    (s.complete e val bits).resErr = e := rfl
@[simp] theorem Block.complete_resVal {c : Config} (s : Block c) (e : Err) (val bits : Bits (c.width + c.width)) :
    (s.complete e val bits).resVal = val := rfl
@[simp] theorem Block.complete_resBits {c : Config} (s : Block c) (e : Err) (val bits : Bits (c.width + c.width)) :
    (s.complete e val bits).resBits = bits := rfl
@[simp] theorem Block.complete_host {c : Config} (s : Block c) (e : Err) (val bits : Bits (c.width + c.width)) :
    (s.complete e val bits).host = s.host := rfl
@[simp] theorem Block.complete_trace {c : Config} (s : Block c) (e : Err) (val bits : Bits (c.width + c.width)) :
    (s.complete e val bits).trace = s.trace := rfl
@[simp] theorem Block.complete_draws {c : Config} (s : Block c) (e : Err) (val bits : Bits (c.width + c.width)) :
    (s.complete e val bits).draws = s.draws := rfl

@[simp] theorem Block.raise_p {c : Config} (s : Block c) (e : Err) : (s.raise e).p = s.p := rfl
@[simp] theorem Block.raise_q {c : Config} (s : Block c) (e : Err) : (s.raise e).q = s.q := rfl
@[simp] theorem Block.raise_qm1 {c : Config} (s : Block c) (e : Err) : (s.raise e).qm1 = s.qm1 := rfl
@[simp] theorem Block.raise_m {c : Config} (s : Block c) (e : Err) : (s.raise e).m = s.m := rfl
@[simp] theorem Block.raise_cnt {c : Config} (s : Block c) (e : Err) : (s.raise e).cnt = s.cnt := rfl
@[simp] theorem Block.raise_phase {c : Config} (s : Block c) (e : Err) : (s.raise e).phase = .done := rfl
@[simp] theorem Block.raise_resErr {c : Config} (s : Block c) (e : Err) : (s.raise e).resErr = e := rfl
@[simp] theorem Block.raise_resVal {c : Config} (s : Block c) (e : Err) : (s.raise e).resVal = 0 := rfl
@[simp] theorem Block.raise_resBits {c : Config} (s : Block c) (e : Err) : (s.raise e).resBits = 0 := rfl
@[simp] theorem Block.raise_host {c : Config} (s : Block c) (e : Err) : (s.raise e).host = s.host := rfl
@[simp] theorem Block.raise_trace {c : Config} (s : Block c) (e : Err) : (s.raise e).trace = s.trace := rfl
@[simp] theorem Block.raise_draws {c : Config} (s : Block c) (e : Err) : (s.raise e).draws = s.draws := rfl

@[simp] theorem Block.clearControl_p {c : Config} (s : Block c) : s.clearControl.p = s.p := rfl
@[simp] theorem Block.clearControl_q {c : Config} (s : Block c) : s.clearControl.q = s.q := rfl
@[simp] theorem Block.clearControl_qm1 {c : Config} (s : Block c) : s.clearControl.qm1 = s.qm1 := rfl
@[simp] theorem Block.clearControl_m {c : Config} (s : Block c) : s.clearControl.m = s.m := rfl
@[simp] theorem Block.clearControl_cnt {c : Config} (s : Block c) : s.clearControl.cnt = s.cnt := rfl
@[simp] theorem Block.clearControl_phase {c : Config} (s : Block c) : s.clearControl.phase = .idle := rfl
@[simp] theorem Block.clearControl_resErr {c : Config} (s : Block c) : s.clearControl.resErr = .noError := rfl
@[simp] theorem Block.clearControl_resVal {c : Config} (s : Block c) : s.clearControl.resVal = 0 := rfl
@[simp] theorem Block.clearControl_resBits {c : Config} (s : Block c) : s.clearControl.resBits = 0 := rfl
@[simp] theorem Block.clearControl_host {c : Config} (s : Block c) : s.clearControl.host = s.host := rfl
@[simp] theorem Block.clearControl_trace {c : Config} (s : Block c) : s.clearControl.trace = s.trace := rfl
@[simp] theorem Block.clearControl_draws {c : Config} (s : Block c) : s.clearControl.draws = s.draws := rfl

@[simp] theorem Block.forgetDatapath_p {c : Config} (s : Block c) : s.forgetDatapath.p = Config.freeBits s.draws c.width := rfl
@[simp] theorem Block.forgetDatapath_q {c : Config} (s : Block c) :
    s.forgetDatapath.q = Config.freeBits (s.draws + 1) c.width := rfl
@[simp] theorem Block.forgetDatapath_qm1 {c : Config} (s : Block c) :
    s.forgetDatapath.qm1 = (Config.freeBits (s.draws + 2) 1).getLsbD 0 := rfl
@[simp] theorem Block.forgetDatapath_m {c : Config} (s : Block c) :
    s.forgetDatapath.m = Config.freeBits (s.draws + 3) c.width := rfl
@[simp] theorem Block.forgetDatapath_cnt {c : Config} (s : Block c) :
    s.forgetDatapath.cnt = Config.freeBits (s.draws + 4) c.cntWidth := rfl
@[simp] theorem Block.forgetDatapath_phase {c : Config} (s : Block c) : s.forgetDatapath.phase = s.phase := rfl
@[simp] theorem Block.forgetDatapath_resErr {c : Config} (s : Block c) : s.forgetDatapath.resErr = s.resErr := rfl
@[simp] theorem Block.forgetDatapath_resVal {c : Config} (s : Block c) : s.forgetDatapath.resVal = s.resVal := rfl
@[simp] theorem Block.forgetDatapath_resBits {c : Config} (s : Block c) : s.forgetDatapath.resBits = s.resBits := rfl
@[simp] theorem Block.forgetDatapath_host {c : Config} (s : Block c) : s.forgetDatapath.host = s.host := rfl
@[simp] theorem Block.forgetDatapath_trace {c : Config} (s : Block c) : s.forgetDatapath.trace = s.trace := rfl
@[simp] theorem Block.forgetDatapath_draws {c : Config} (s : Block c) : s.forgetDatapath.draws = s.draws + 5 := rfl

@[simp] theorem Block.load_p {c : Config} (s : Block c) (x y : Int) : (s.load x y).p = 0 := rfl
@[simp] theorem Block.load_q {c : Config} (s : Block c) (x y : Int) : (s.load x y).q = wrap c.width y := rfl
@[simp] theorem Block.load_qm1 {c : Config} (s : Block c) (x y : Int) : (s.load x y).qm1 = false := rfl
@[simp] theorem Block.load_m {c : Config} (s : Block c) (x y : Int) : (s.load x y).m = wrap c.width x := rfl
@[simp] theorem Block.load_cnt {c : Config} (s : Block c) (x y : Int) : (s.load x y).cnt = BitVec.ofNat c.cntWidth c.width := rfl
@[simp] theorem Block.load_phase {c : Config} (s : Block c) (x y : Int) : (s.load x y).phase = .run := rfl
@[simp] theorem Block.load_resErr {c : Config} (s : Block c) (x y : Int) : (s.load x y).resErr = s.resErr := rfl
@[simp] theorem Block.load_resVal {c : Config} (s : Block c) (x y : Int) : (s.load x y).resVal = s.resVal := rfl
@[simp] theorem Block.load_resBits {c : Config} (s : Block c) (x y : Int) : (s.load x y).resBits = s.resBits := rfl
@[simp] theorem Block.load_host {c : Config} (s : Block c) (x y : Int) : (s.load x y).host = s.host := rfl
@[simp] theorem Block.load_trace {c : Config} (s : Block c) (x y : Int) : (s.load x y).trace = s.trace := rfl
@[simp] theorem Block.load_draws {c : Config} (s : Block c) (x y : Int) : (s.load x y).draws = s.draws := rfl

@[simp] theorem Block.setP_p {c : Config} (s : Block c) (v : Bits c.width) : (s.setP v).p = v := rfl
@[simp] theorem Block.setP_q {c : Config} (s : Block c) (v : Bits c.width) : (s.setP v).q = s.q := rfl
@[simp] theorem Block.setP_qm1 {c : Config} (s : Block c) (v : Bits c.width) : (s.setP v).qm1 = s.qm1 := rfl
@[simp] theorem Block.setP_m {c : Config} (s : Block c) (v : Bits c.width) : (s.setP v).m = s.m := rfl
@[simp] theorem Block.setP_cnt {c : Config} (s : Block c) (v : Bits c.width) : (s.setP v).cnt = s.cnt := rfl
@[simp] theorem Block.setP_phase {c : Config} (s : Block c) (v : Bits c.width) : (s.setP v).phase = s.phase := rfl
@[simp] theorem Block.setP_resErr {c : Config} (s : Block c) (v : Bits c.width) : (s.setP v).resErr = s.resErr := rfl
@[simp] theorem Block.setP_resVal {c : Config} (s : Block c) (v : Bits c.width) : (s.setP v).resVal = s.resVal := rfl
@[simp] theorem Block.setP_resBits {c : Config} (s : Block c) (v : Bits c.width) : (s.setP v).resBits = s.resBits := rfl
@[simp] theorem Block.setP_host {c : Config} (s : Block c) (v : Bits c.width) : (s.setP v).host = s.host := rfl
@[simp] theorem Block.setP_trace {c : Config} (s : Block c) (v : Bits c.width) : (s.setP v).trace = s.trace := rfl
@[simp] theorem Block.setP_draws {c : Config} (s : Block c) (v : Bits c.width) : (s.setP v).draws = s.draws := rfl

@[simp] theorem Block.shift_p {c : Config} (s : Block c) : s.shift.p = combinedP (shiftCombined (combined s.p s.q s.qm1)) := rfl
@[simp] theorem Block.shift_q {c : Config} (s : Block c) : s.shift.q = combinedQ (shiftCombined (combined s.p s.q s.qm1)) := rfl
@[simp] theorem Block.shift_qm1 {c : Config} (s : Block c) :
    s.shift.qm1 = combinedQM1 (shiftCombined (combined s.p s.q s.qm1)) := rfl
@[simp] theorem Block.shift_m {c : Config} (s : Block c) : s.shift.m = s.m := rfl
@[simp] theorem Block.shift_cnt {c : Config} (s : Block c) : s.shift.cnt = s.cnt := rfl
@[simp] theorem Block.shift_phase {c : Config} (s : Block c) : s.shift.phase = s.phase := rfl
@[simp] theorem Block.shift_resErr {c : Config} (s : Block c) : s.shift.resErr = s.resErr := rfl
@[simp] theorem Block.shift_resVal {c : Config} (s : Block c) : s.shift.resVal = s.resVal := rfl
@[simp] theorem Block.shift_resBits {c : Config} (s : Block c) : s.shift.resBits = s.resBits := rfl
@[simp] theorem Block.shift_host {c : Config} (s : Block c) : s.shift.host = s.host := rfl
@[simp] theorem Block.shift_trace {c : Config} (s : Block c) : s.shift.trace = s.trace := rfl
@[simp] theorem Block.shift_draws {c : Config} (s : Block c) : s.shift.draws = s.draws := rfl

@[simp] theorem Block.countDown_p {c : Config} (s : Block c) : s.countDown.p = s.p := rfl
@[simp] theorem Block.countDown_q {c : Config} (s : Block c) : s.countDown.q = s.q := rfl
@[simp] theorem Block.countDown_qm1 {c : Config} (s : Block c) : s.countDown.qm1 = s.qm1 := rfl
@[simp] theorem Block.countDown_m {c : Config} (s : Block c) : s.countDown.m = s.m := rfl
@[simp] theorem Block.countDown_cnt {c : Config} (s : Block c) : s.countDown.cnt = s.cnt - 1 := rfl
@[simp] theorem Block.countDown_phase {c : Config} (s : Block c) : s.countDown.phase = s.phase := rfl
@[simp] theorem Block.countDown_resErr {c : Config} (s : Block c) : s.countDown.resErr = s.resErr := rfl
@[simp] theorem Block.countDown_resVal {c : Config} (s : Block c) : s.countDown.resVal = s.resVal := rfl
@[simp] theorem Block.countDown_resBits {c : Config} (s : Block c) : s.countDown.resBits = s.resBits := rfl
@[simp] theorem Block.countDown_host {c : Config} (s : Block c) : s.countDown.host = s.host := rfl
@[simp] theorem Block.countDown_trace {c : Config} (s : Block c) : s.countDown.trace = s.trace := rfl
@[simp] theorem Block.countDown_draws {c : Config} (s : Block c) : s.countDown.draws = s.draws := rfl

@[simp] theorem Block.emit_p {c : Config} (s : Block c) (tag : Tag) : (s.emit tag).p = s.p := rfl
@[simp] theorem Block.emit_q {c : Config} (s : Block c) (tag : Tag) : (s.emit tag).q = s.q := rfl
@[simp] theorem Block.emit_qm1 {c : Config} (s : Block c) (tag : Tag) : (s.emit tag).qm1 = s.qm1 := rfl
@[simp] theorem Block.emit_m {c : Config} (s : Block c) (tag : Tag) : (s.emit tag).m = s.m := rfl
@[simp] theorem Block.emit_cnt {c : Config} (s : Block c) (tag : Tag) : (s.emit tag).cnt = s.cnt := rfl
@[simp] theorem Block.emit_phase {c : Config} (s : Block c) (tag : Tag) : (s.emit tag).phase = s.phase := rfl
@[simp] theorem Block.emit_resErr {c : Config} (s : Block c) (tag : Tag) : (s.emit tag).resErr = s.resErr := rfl
@[simp] theorem Block.emit_resVal {c : Config} (s : Block c) (tag : Tag) : (s.emit tag).resVal = s.resVal := rfl
@[simp] theorem Block.emit_resBits {c : Config} (s : Block c) (tag : Tag) : (s.emit tag).resBits = s.resBits := rfl
@[simp] theorem Block.emit_host {c : Config} (s : Block c) (tag : Tag) : (s.emit tag).host = s.host := rfl
@[simp] theorem Block.emit_trace {c : Config} (s : Block c) (tag : Tag) :
    (s.emit tag).trace = if c.traceEn then s.trace ++ [s.event tag] else s.trace := rfl
@[simp] theorem Block.emit_draws {c : Config} (s : Block c) (tag : Tag) : (s.emit tag).draws = s.draws := rfl

@[simp] theorem Block.presentInput_p {c : Config} (s : Block c) (h : HostInput c.w) : (s.presentInput h).p = s.p := rfl
@[simp] theorem Block.presentInput_q {c : Config} (s : Block c) (h : HostInput c.w) : (s.presentInput h).q = s.q := rfl
@[simp] theorem Block.presentInput_qm1 {c : Config} (s : Block c) (h : HostInput c.w) : (s.presentInput h).qm1 = s.qm1 := rfl
@[simp] theorem Block.presentInput_m {c : Config} (s : Block c) (h : HostInput c.w) : (s.presentInput h).m = s.m := rfl
@[simp] theorem Block.presentInput_cnt {c : Config} (s : Block c) (h : HostInput c.w) : (s.presentInput h).cnt = s.cnt := rfl
@[simp] theorem Block.presentInput_phase {c : Config} (s : Block c) (h : HostInput c.w) :
    (s.presentInput h).phase = s.phase := rfl
@[simp] theorem Block.presentInput_resErr {c : Config} (s : Block c) (h : HostInput c.w) :
    (s.presentInput h).resErr = s.resErr := rfl
@[simp] theorem Block.presentInput_resVal {c : Config} (s : Block c) (h : HostInput c.w) :
    (s.presentInput h).resVal = s.resVal := rfl
@[simp] theorem Block.presentInput_resBits {c : Config} (s : Block c) (h : HostInput c.w) :
    (s.presentInput h).resBits = s.resBits := rfl
@[simp] theorem Block.presentInput_host {c : Config} (s : Block c) (h : HostInput c.w) :
    (s.presentInput h).host = h :: s.host.tail := rfl
@[simp] theorem Block.presentInput_trace {c : Config} (s : Block c) (h : HostInput c.w) :
    (s.presentInput h).trace = s.trace := rfl
@[simp] theorem Block.presentInput_draws {c : Config} (s : Block c) (h : HostInput c.w) :
    (s.presentInput h).draws = s.draws := rfl

@[simp] theorem Block.leaveRun_p {c : Config} (s : Block c) : s.leaveRun.p = s.p := rfl
@[simp] theorem Block.leaveRun_q {c : Config} (s : Block c) : s.leaveRun.q = s.q := rfl
@[simp] theorem Block.leaveRun_qm1 {c : Config} (s : Block c) : s.leaveRun.qm1 = s.qm1 := rfl
@[simp] theorem Block.leaveRun_m {c : Config} (s : Block c) : s.leaveRun.m = s.m := rfl
@[simp] theorem Block.leaveRun_cnt {c : Config} (s : Block c) : s.leaveRun.cnt = s.cnt := rfl
@[simp] theorem Block.leaveRun_phase {c : Config} (s : Block c) :
    s.leaveRun.phase = if s.phase = .run then .idle else s.phase := rfl
@[simp] theorem Block.leaveRun_resErr {c : Config} (s : Block c) : s.leaveRun.resErr = s.resErr := rfl
@[simp] theorem Block.leaveRun_resVal {c : Config} (s : Block c) : s.leaveRun.resVal = s.resVal := rfl
@[simp] theorem Block.leaveRun_resBits {c : Config} (s : Block c) : s.leaveRun.resBits = s.resBits := rfl
@[simp] theorem Block.leaveRun_host {c : Config} (s : Block c) : s.leaveRun.host = s.host := rfl
@[simp] theorem Block.leaveRun_trace {c : Config} (s : Block c) : s.leaveRun.trace = s.trace := rfl
@[simp] theorem Block.leaveRun_draws {c : Config} (s : Block c) : s.leaveRun.draws = s.draws := rfl

@[simp] theorem Block.placeRun_p {c : Config} (s : Block c) (more : Bool) : (s.placeRun more).p = s.p := rfl
@[simp] theorem Block.placeRun_q {c : Config} (s : Block c) (more : Bool) : (s.placeRun more).q = s.q := rfl
@[simp] theorem Block.placeRun_qm1 {c : Config} (s : Block c) (more : Bool) : (s.placeRun more).qm1 = s.qm1 := rfl
@[simp] theorem Block.placeRun_m {c : Config} (s : Block c) (more : Bool) : (s.placeRun more).m = s.m := rfl
@[simp] theorem Block.placeRun_cnt {c : Config} (s : Block c) (more : Bool) :
    (s.placeRun more).cnt = if more then (if s.cnt = 0 then 1 else s.cnt) else 0 := rfl
@[simp] theorem Block.placeRun_phase {c : Config} (s : Block c) (more : Bool) : (s.placeRun more).phase = .run := rfl
@[simp] theorem Block.placeRun_resErr {c : Config} (s : Block c) (more : Bool) : (s.placeRun more).resErr = s.resErr := rfl
@[simp] theorem Block.placeRun_resVal {c : Config} (s : Block c) (more : Bool) : (s.placeRun more).resVal = s.resVal := rfl
@[simp] theorem Block.placeRun_resBits {c : Config} (s : Block c) (more : Bool) : (s.placeRun more).resBits = s.resBits := rfl
@[simp] theorem Block.placeRun_host {c : Config} (s : Block c) (more : Bool) : (s.placeRun more).host = s.host := rfl
@[simp] theorem Block.placeRun_trace {c : Config} (s : Block c) (more : Bool) : (s.placeRun more).trace = s.trace := rfl
@[simp] theorem Block.placeRun_draws {c : Config} (s : Block c) (more : Bool) : (s.placeRun more).draws = s.draws := rfl

end Sys2Proof.Machine
end

