-- ==== Sys2Proof/Laws/Step.lean ====
section
/-! SUPPORT. What selects each step, what a step then answers, what several steps answer, and what the host does meanwhile. -/

namespace Sys2Proof.Machine

theorem tickOutcome_next (s : State) : tickOutcome (.next s) = .next { s with block := s.block.tick } := rfl

/-! ### One step -/

theorem step_of_selected {s : State} {i : Instr} (h : s.block.selected = some i) : step s = tickOutcome (exec i s) := by
  simp only [step, h]

theorem step_of_noStep {s : State} (h : s.block.selected = none) : step s = .next { s with block := s.block.tick } := by
  simp only [step, h]

theorem Block.selected_reset {c : Config} {b : Block c} (hr : b.input.rst = true) : b.selected = some .reset := by
  simp only [Block.selected, selectStep, hr, if_true]

theorem Block.selected_run {c : Config} {b : Block c} (hr : b.input.rst = false) (hp : b.phase = .run) :
    b.selected = some (if 0 < U b.cnt then .iter else .finish) := by
  simp only [Block.selected, selectStep, hr, hp]
  split_ifs <;> simp_all

theorem Block.selected_accept {c : Config} {b : Block c} (h : b.Accepting) : b.selected = some .accept := by
  obtain ⟨h1, h2, h3⟩ := h
  cases hp : b.phase <;> simp_all [Block.selected, selectStep]

theorem Block.selected_noStep {c : Config} {b : Block c} (hr : b.input.rst = false) (hp : b.phase ≠ .run)
    (hv : b.input.cmdValid = false) : b.selected = none := by
  cases hq : b.phase <;> simp_all [Block.selected, selectStep]

/-- ACCEPT executes the presented command. -/
theorem exec_accept (s : State) : exec .accept s = exec s.block.command s := by
  unfold Block.command decodeCommand
  rw [onCommand_map (fun i => exec i s)]
  rfl

/-- A command that raises an error does nothing else. -/
theorem exec_of_raisedBy {s : State} {i : Instr} {e : Err} (h : raisedBy s.cfg i = some e) :
    exec i s = .next { s with block := s.block.raise e } := by
  cases i <;> (simp only [raisedBy] at h; try cases h)
  · simp only [exec, execEnc, encodeBits]
    split_ifs at h ⊢ <;> simp_all
  · simp only [exec, execDec, decodeBits]
    split_ifs at h ⊢
    simp_all
  · simp only [exec, execMul]
    split_ifs at h ⊢ with h1 h2 h3 <;> simp_all

/-! ### What the commands answer, by what their checks answer -/

theorem exec_enc_ok {c : Config} {b : Block c} {v : Int} {str : Bits c.width} (h : encodeBits v c.n = .ok str) :
    exec (.enc v) ⟨c, b⟩ = .next ⟨c, b.complete .noError 0 (zext _ str)⟩ := by
  simp only [exec, execEnc, h]

theorem exec_enc_error {c : Config} {b : Block c} {v : Int} {e : Err} (h : encodeBits v c.n = .error e) :
    exec (.enc v) ⟨c, b⟩ = .next ⟨c, b.raise e⟩ := by
  simp only [exec, execEnc, h]

theorem exec_dec_ok {c : Config} {b : Block c} {len : Nat} {bits : Bits len} {x : Int} (h : decodeBits bits = .ok x) :
    exec (.dec len bits) ⟨c, b⟩ = .next ⟨c, b.complete .noError (wrap _ x) 0⟩ := by
  simp only [exec, execDec, h]

theorem exec_dec_error {c : Config} {b : Block c} {len : Nat} {bits : Bits len} {e : Err}
    (h : decodeBits bits = .error e) : exec (.dec len bits) ⟨c, b⟩ = .next ⟨c, b.raise e⟩ := by
  simp only [exec, execDec, h]

theorem exec_mul_ok {c : Config} {b : Block c} {x y : Int} (h : raisedBy c (.mul x y) = none) :
    exec (.mul x y) ⟨c, b⟩ = .next ⟨c, b.load x y⟩ := by
  simp only [raisedBy] at h
  split_ifs at h with h1 h2
  simp only [exec, execMul]
  rw [if_neg h1, if_neg (by tauto)]

/-! ### The command on the ports -/

@[simp] theorem HostInput.commandOp_word {w : Nat} (h : HostInput w) : commandOp h.word = h.cmdOp := commandOp_append _ _ _
@[simp] theorem HostInput.commandA_word {w : Nat} (h : HostInput w) : commandA h.word = h.cmdA := commandA_append _ _ _
@[simp] theorem HostInput.commandB_word {w : Nat} (h : HostInput w) : commandB h.word = h.cmdB := commandB_append _ _ _

/-! ### The counter -/

/-- The counter is wide enough for the width. -/
theorem Config.width_lt (c : Config) : c.width < 2 ^ c.cntWidth := Nat.lt_log2_self

theorem Config.U_width (c : Config) : U (BitVec.ofNat c.cntWidth c.width) = c.width := by
  simp only [U, BitVec.toNat_ofNat, Nat.mod_eq_of_lt (Config.width_lt c)]

/-- A counter that is not zero goes down by one. -/
theorem U_pred {w : Nat} {v : Bits w} (h : 0 < U v) : U (v - 1) = U v - 1 := by
  have hv := v.isLt
  have hw : 1 ≤ w := by
    by_contra hc
    have : w = 0 := by omega
    subst this
    simp [U, Subsingleton.elim v 0] at h
  have h2 : 2 ≤ 2 ^ w := by
    calc 2 = 2 ^ 1 := rfl
      _ ≤ _ := Nat.pow_le_pow_right (by omega) hw
  simp only [U] at h ⊢
  rw [BitVec.toNat_sub, show (1 : Bits w).toNat = 1 by simp; omega,
    show 2 ^ w - 1 + v.toNat = (v.toNat - 1) + 2 ^ w by omega, Nat.add_mod_right, Nat.mod_eq_of_lt (by omega)]

/-! ### Several steps -/

theorem runFor_zero (s : State) : runFor 0 s = .next s := rfl

theorem runFor_succ {s t : State} (k : Nat) (h : step s = .next t) : runFor (k + 1) s = runFor k t := by
  rw [runFor, h]

theorem runFor_add {j : Nat} {s t : State} (k : Nat) (h : runFor j s = .next t) : runFor (j + k) s = runFor k t := by
  induction j generalizing s with
  | zero => cases h; rw [Nat.zero_add]
  | succ j ih =>
    rw [show j + 1 + k = (j + k) + 1 by omega]
    simp only [runFor] at h ⊢
    split at h
    · exact ih h
    · cases h
    · cases h

/-- These are the steps the host's own interface takes. -/
theorem runFor_eq_run (k : Nat) (s : State) : runFor k s = Host.Core.run core k s := by
  induction k generalizing s with
  | zero => rfl
  | succ k ih =>
    cases h : step s with
    | next t =>
      have h' : Host.Core.step core s = .next t := h
      simp only [runFor, Host.Core.run, h, h', ih t]
      rfl
    | fault r => cases r
    | refused r =>
      have h' : Host.Core.step core s = .refused r := h
      simp only [runFor, Host.Core.run, h, h']
      rfl

/-! ### The host's schedule -/

theorem Block.NoReset.mono {c : Config} {b : Block c} {j k : Nat} (h : b.NoReset k) (hj : j ≤ k) : b.NoReset j :=
  fun x hx => h x ((List.take_sublist_take_left hj).subset hx)

/-- What is presented after `k` steps is no reset. -/
theorem rst_drop {w : Nat} {l : List (HostInput w)} {k : Nat} (h : ∀ x ∈ l.take (k + 1), x.rst = false) :
    ((l.drop k).headD (HostInput.idle w)).rst = false := by
  induction k generalizing l with
  | zero =>
    cases l with
    | nil => rfl
    | cons x l => exact h x (by simp)
  | succ k ih =>
    cases l with
    | nil => rfl
    | cons x l => exact ih fun y hy => h y (by rw [List.take_succ_cons, List.mem_cons]; exact .inr hy)

theorem Block.NoReset.rst {c : Config} {b : Block c} {k : Nat} (h : b.NoReset (k + 1)) : b.input.rst = false :=
  rst_drop (k := 0) (h.mono (show 0 + 1 ≤ k + 1 by omega))

/-- A block whose schedule is the rest of another's meets no reset either. -/
theorem Block.NoReset.of_tail {c : Config} {b t : Block c} {k : Nat} (h : b.NoReset (k + 1)) (ht : t.host = b.host.tail) :
    t.NoReset k := by
  intro x hx
  rw [ht] at hx
  cases hh : b.host with
  | nil => simp [hh] at hx
  | cons y l => exact h x (by rw [hh, List.take_succ_cons, List.mem_cons]; right; simpa [hh] using hx)

end Sys2Proof.Machine
end

