-- ==== Sys2Proof/Laws/Multiplier.lean ====
section
/-! SUPPORT. What LOAD and ITER leave, and that ITER follows the algorithm on the triple `(P, Q, QM1)`. -/

namespace Sys2Proof.Machine

/-- `P1` by cases on the pair. -/
theorem Block.p1_eq {c : Config} (b : Block c) : b.p1 =
    if b.q.getLsbD 0 = false ∧ b.qm1 = true then b.sum
    else if b.q.getLsbD 0 = true ∧ b.qm1 = false then b.difference
    else b.p := by
  unfold Block.p1 onPair
  cases h1 : b.q.getLsbD 0 <;> cases h2 : b.qm1 <;> simp

/-- The triple of a block. -/
def Block.triple {c : Config} (b : Block c) : Triple c.width := { p := b.p, q := b.q, qm1 := b.qm1 }

/-- The block with another triple. -/
def Block.withTriple {c : Config} (b : Block c) (t : Triple c.width) : Block c := { b with p := t.p, q := t.q, qm1 := t.qm1 }

/-- The pair's action on the block is its action on the triple. -/
theorem Block.action_eq {c : Config} (b : Block c) {a : Int} (hm : b.m = wrap _ a) :
    (b.setP b.p1).triple = boothAction a b.triple := by
  have e1 : b.sum = wrap c.width (S b.p + a) := by rw [Block.sum, hm, wrap_add_wrap]
  have e2 : b.difference = wrap c.width (S b.p - a) := by rw [Block.difference, hm, wrap_sub_wrap]
  show (⟨b.p1, b.q, b.qm1⟩ : Triple c.width) = boothAction a ⟨b.p, b.q, b.qm1⟩
  rw [Block.p1_eq, e1, e2]
  unfold boothAction
  split_ifs <;> rfl

/-- The shift on the block is the shift on the triple. -/
theorem Block.shift_triple {c : Config} (b : Block c) (hn : 1 ≤ c.n) : b.shift.triple = boothShift b.triple := by
  have hw : 1 ≤ c.width := by simp only [Config.width]; omega
  simp only [Block.triple, Block.shift, boothShift]
  rw [combinedP_shift _ _ _ hw, combinedQ_shift _ _ _ hw, combinedQM1_shift _ _ _ hw]
  rfl

/-- One ITER, written out in the algorithm's terms. -/
theorem exec_iter {c : Config} (b : Block c) {a : Int} (hn : 1 ≤ c.n) (hm : b.m = wrap _ a) :
    exec .iter ⟨c, b⟩ = .next ⟨c, { b.withTriple (boothIteration a b.triple) with
      cnt := b.cnt - 1
      trace := if c.traceEn then b.trace ++ boothEvents a (c.n - U b.cnt + 1) b.triple else b.trace }⟩ := by
  have h1 : { b.triple with p := b.p1 } = boothAction a b.triple := Block.action_eq b hm
  have h2 : (b.setP b.p1).shift.triple = boothIteration a b.triple := by
    rw [Block.shift_triple _ hn, Block.action_eq b hm, boothIteration]
  have hp : b.p1 = (boothAction a b.triple).p := congrArg Triple.p h1
  have hx : ∀ t : Triple c.width, (b.setP b.p1).shift.triple = t →
      (b.setP b.p1).shift.p = t.p ∧ (b.setP b.p1).shift.q = t.q ∧ (b.setP b.p1).shift.qm1 = t.qm1 := by
    rintro t rfl; exact ⟨rfl, rfl, rfl⟩
  obtain ⟨e1, e2, e3⟩ := hx _ h2
  simp only [boothEvents, Block.withTriple, ← hp, ← e1, ← e2, ← e3]
  simp only [exec, execIter, Block.emit, Block.event, Block.countDown, Block.shift, Block.setP, Block.triple]
  split_ifs <;> simp

/-- LOAD: the step that accepts a MUL with operands that raise nothing. -/
theorem step_load {c : Config} {b : Block c} {x y : Int} (h : b.AcceptingMul x y) :
    step ⟨c, b⟩ = .next ⟨c, (b.load x y).tick⟩ := by
  rw [step_of_selected (Block.selected_accept h.accepting), exec_accept]
  show tickOutcome (exec b.command ⟨c, b⟩) = _
  have h1 := h.width
  rw [h.command, exec_mul_ok, tickOutcome_next]
  simp only [raisedBy]
  rw [if_neg (by omega), if_pos ⟨h.multiplicand, h.multiplier⟩]

/-- `k` iterations in a row are `k` iterations of the algorithm. -/
theorem runFor_iter {c : Config} (a : Int) (hn : 1 ≤ c.n) (k : Nat) (b : Block c) (hp : b.phase = .run)
    (hm : b.m = wrap _ a) (hk : k ≤ U b.cnt) (hr : b.NoReset k) :
    ∃ cnt, U cnt = U b.cnt - k ∧
      runFor k ⟨c, b⟩ = .next ⟨c, { b.withTriple (boothRun a k b.triple) with
        cnt := cnt
        trace := if c.traceEn then b.trace ++ boothTrace a k (c.n - U b.cnt + 1) b.triple else b.trace
        host := b.host.drop k }⟩ := by
  induction k generalizing b with
  | zero => exact ⟨b.cnt, rfl, by simp [runFor, boothRun, boothTrace, Block.withTriple, Block.triple]⟩
  | succ k ih =>
    have hc : 0 < U b.cnt := by omega
    have hs : step ⟨c, b⟩ = tickOutcome (exec .iter ⟨c, b⟩) := by
      refine step_of_selected ?_
      rw [Block.selected_run hr.rst hp, if_pos hc]
    rw [exec_iter b hn hm, tickOutcome_next] at hs
    rw [runFor_succ _ hs]
    obtain ⟨cnt, h1, h2⟩ := ih (Block.tick { b.withTriple (boothIteration a b.triple) with
        cnt := b.cnt - 1
        trace := if c.traceEn then b.trace ++ boothEvents a (c.n - U b.cnt + 1) b.triple else b.trace })
      hp hm (by show k ≤ U (b.cnt - 1); rw [U_pred hc]; omega) (hr.of_tail rfl)
    refine ⟨cnt, h1.trans (by show U (b.cnt - 1) - k = _; rw [U_pred hc]; omega), h2.trans ?_⟩
    have hi : c.n - (U (b.cnt - 1) : Int) + 1 = c.n - U b.cnt + 1 + 1 := by rw [U_pred hc]; omega
    simp only [Block.tick, Block.withTriple, Block.triple, boothRun, boothTrace, hi]
    cases ht : c.traceEn <;> simp [List.append_assoc]

end Sys2Proof.Machine
end

