-- ==== Sys2Proof/Laws/PerInstr.lean ====
section
/-! SUPPORT. One law per instruction: its word carries the fixed bits of its row of the opcode table, in every instance. -/

namespace Sys2Proof.Laws.OpcodeRow

open Sys2Proof

/-- The fixed bits of a row of the opcode table. -/
inductive Row where
  /-- `op` in bits `[2W+1 : 2W]` (the CMD rows' parametric fields). -/
  | command (op : Bits 2)
  /-- Both bits (the PAIR rows). -/
  | pair (bits : Bits 2)
  /-- `word & mask = pattern` (the SEQ rows). -/
  | selection (mask pattern : Bits 5)
deriving DecidableEq, Repr

/-- Each instruction's row, read from `opcode_table.json`. -/
def row : Instr → Row
  | .nop => .command 0b00#2
  | .enc _ => .command 0b01#2
  | .dec _ _ => .command 0b10#2
  | .mul _ _ => .command 0b11#2
  | .holdZeros => .pair 0b00#2
  | .add => .pair 0b01#2
  | .sub => .pair 0b10#2
  | .holdOnes => .pair 0b11#2
  | .reset => .selection 0x10#5 0x10#5
  | .iter => .selection 0x1E#5 0x06#5
  | .asr => .selection 0x1E#5 0x06#5
  | .finish => .selection 0x1E#5 0x04#5
  | .accept => .selection 0x15#5 0x01#5

/-- The word is one of the row's. -/
def Matches {w : Nat} : Row → CodeWord w → Prop
  | .command op, .command word => commandOp word = op
  | .pair bits, .pair word => word = bits
  | .selection mask pattern, .selection word => word &&& mask = pattern
  | .command _, .pair _ => False
  | .command _, .selection _ => False
  | .pair _, .command _ => False
  | .pair _, .selection _ => False
  | .selection _ _, .command _ => False
  | .selection _ _, .pair _ => False

/-- The instruction's word carries its row's fixed bits, whatever its operands and the instance's parameters. -/
def Statement (i : Instr) : Prop := ∀ c : Config, Matches (row i) (encode c i)

theorem nop : Statement .nop := fun _ => commandOp_append _ _ _
theorem enc (value : Int) : Statement (.enc value) := fun _ => commandOp_append _ _ _
theorem dec (len : Nat) (bits : Bits len) : Statement (.dec len bits) := fun _ => commandOp_append _ _ _
theorem mul (multiplicand multiplier : Int) : Statement (.mul multiplicand multiplier) := fun _ => commandOp_append _ _ _
theorem holdZeros : Statement .holdZeros := fun _ => rfl
theorem add : Statement .add := fun _ => rfl
theorem sub : Statement .sub := fun _ => rfl
theorem holdOnes : Statement .holdOnes := fun _ => rfl
theorem reset : Statement .reset := fun _ => rfl
theorem iter : Statement .iter := fun _ => rfl
theorem asr : Statement .asr := fun _ => rfl
theorem finish : Statement .finish := fun _ => rfl
theorem accept : Statement .accept := fun _ => rfl

end Sys2Proof.Laws.OpcodeRow
end

