-- ==== Sys2Proof/Tests/Slice0.lean ====
section
/-! SUPPORT. Tests, each one step or one function value on a small state. Expected values are the spec's: the example words of
`30_encoding.md` R53, the rows of `opcode_table.json`, and the vectors V<n> of `95_test_vectors.md`. -/

namespace Sys2Proof.Tests

open Sys2Proof Sys2Proof.Machine

/-! ### Well-formedness: each check refuses an ill-formed term -/

theorem test_wellFormed_config : Config.WellFormed ⟨6, 6, false⟩ ∧ ¬ Config.WellFormed ⟨6, 5, false⟩ := by decide
theorem test_wellFormed_enc_high :
    (Instr.enc 2047).wellFormed .reference = true ∧ (Instr.enc 2048).wellFormed .reference = false := by decide
theorem test_wellFormed_enc_low :
    (Instr.enc (-2048)).wellFormed .reference = true ∧ (Instr.enc (-2049)).wellFormed .reference = false := by decide
theorem test_wellFormed_dec :
    (Instr.dec 6 0b111011#6).wellFormed .reference = true ∧ (Instr.dec 5 0b11011#5).wellFormed .reference = false := by decide
theorem test_wellFormed_mul_multiplicand : (Instr.mul 2048 0).wellFormed .reference = false := by decide
theorem test_wellFormed_mul_multiplier :
    (Instr.mul 0 (-2049)).wellFormed .reference = false ∧ (Instr.mul 2047 (-2048)).wellFormed .reference = true := by decide
theorem test_wellFormed_no_field : fitsField 0 0 = true ∧ fitsField 0 1 = false := by decide

/-! ### Decoding: words written out bit by bit -/

theorem test_decode_nop : decodeCommand .reference 0b00_101010111100_110111101111#26 = .nop := by decide
theorem test_decode_enc : decodeCommand .reference 0b01_111111111011_000000000000#26 = .enc (-5) := by decide
theorem test_decode_dec : decodeCommand .reference 0b10_111111111011_000000000000#26 = .dec 6 0b111011#6 := by decide
theorem test_decode_mul : decodeCommand .reference 0b11_000000000011_111111111100#26 = .mul 3 (-4) := by decide
theorem test_decode_pair :
    decodePair 0b00#2 = .holdZeros ∧ decodePair 0b01#2 = .add ∧ decodePair 0b10#2 = .sub ∧ decodePair 0b11#2 = .holdOnes := by
  decide
theorem test_decode_reset : decodeSelection 0b1_01_1_1#5 = .ok .reset ∧ decodeSelection 0b1_11_0_0#5 = .ok .reset := by
  constructor <;> rfl
theorem test_decode_iter : decodeSelection 0b0_01_1_0#5 = .ok .iter ∧ decodeSelection 0b0_01_1_1#5 = .ok .iter := by
  constructor <;> rfl
theorem test_decode_finish : decodeSelection 0b0_01_0_1#5 = .ok .finish := rfl
theorem test_decode_accept : decodeSelection 0b0_00_1_1#5 = .ok .accept ∧ decodeSelection 0b0_10_0_1#5 = .ok .accept := by
  constructor <;> rfl
theorem test_decode_rejects :
    decodeSelection 0b0_10_1_0#5 = .error .noStep ∧ decodeSelection 0b0_11_0_1#5 = .error .unusedPhase := by
  constructor <;> rfl
theorem test_table_bytes :
    decodeTableWord 32 0x3FFD004 = some (.mul (-3) 4) ∧ decodeTableWord 8 0x10 = some .reset ∧ decodeTableWord 8 0x06 = some .iter ∧
    decodeTableWord 8 0x02 = some .sub ∧ decodeTableWord 8 0x20 = none ∧ decodeTableWord 32 (2 ^ 26) = none := by
  decide

/-! ### States for the tests -/

/-- A block of the reference instance. -/
def block (p q : Bits 6) (qm1 : Bool) (m : Bits 6) (cnt : Nat) (phase : Phase) : Block .reference :=
  { Block.reset .reference with p := p, q := q, qm1 := qm1, m := m, cnt := BitVec.ofNat _ cnt, phase := phase }

/-- The block, with what its host presents. -/
def hosted (b : Block .reference) (hs : List (HostInput 12)) : State := ⟨.reference, { b with host := hs }⟩

/-- The block after reset, with a command word on its ports. -/
def presented (word : Bits 26) : State := hosted (Block.reset .reference) [HostInput.present word]

/-- An instance of another width, after reset. -/
def sized (n : Int) (w : Nat) : State := ⟨⟨n, w, false⟩, Block.reset _⟩

/-- The outcome is a next state, of which `f` holds. -/
def sees (o : Host.Outcome State Fault Refusal) (f : State → Bool) : Bool :=
  match o with
  | .next s => f s
  | .fault _ => false
  | .refused _ => false

/-- The response registers, as numbers. -/
def resp (s : State) : Phase × Err × Nat × Nat := (s.block.phase, s.block.resErr, s.block.resVal.toNat, s.block.resBits.toNat)

/-- The triple and the counter, as numbers. -/
def data (s : State) : Nat × Nat × Bool × Nat := (s.block.p.toNat, s.block.q.toNat, s.block.qm1, s.block.cnt.toNat)

/-! ### The commands -/

/-- V1. -/
theorem test_enc : sees (step (presented 0x1FFB000#26)) (fun s => decide (resp s = (.done, .noError, 0, 0b000000111011))) = true := by
  decide
/-- V6, V16. -/
theorem test_enc_range : sees (step (presented 0x1020000#26)) (fun s => decide (resp s = (.done, .range, 0, 0))) = true := by decide
/-- V2, and the ignored bits. -/
theorem test_dec : sees (step (presented 0x2FFB000#26)) (fun s => decide (resp s = (.done, .noError, 0b111111111011, 0))) = true := by
  decide
/-- V25. -/
theorem test_dec_empty : sees (exec (.dec 0 0#0) (sized 0 0)) (fun s => decide (resp s = (.done, .format, 0, 0))) = true := by decide
/-- V19. -/
theorem test_enc_config : sees (exec (.enc 0) (sized 0 0)) (fun s => decide (resp s = (.done, .config, 0, 0))) = true := by decide
/-- V26, LOAD. -/
theorem test_mul_load : sees (step (presented 0x3FFD004#26)) (fun s =>
    decide (data s = (0, 0b000100, false, 6)) && decide (s.block.m.toNat = 0b111101) && decide (s.block.phase = .run)) = true := by
  decide
/-- V44: CONFIG comes before RANGE; V43: RANGE on the multiplier, nothing loaded. -/
theorem test_mul_errors :
    sees (exec (.mul 99 99) (sized 0 0)) (fun s => decide (resp s = (.done, .config, 0, 0))) = true ∧
    sees (step (presented 0x3005FDF#26)) (fun s =>
      decide (resp s = (.done, .range, 0, 0)) && decide (data s = (0, 0, false, 0)) && decide (s.block.m.toNat = 0)) = true := by
  decide
/-- V50: NOP in DONE keeps the response. -/
theorem test_nop : sees (step (hosted { block 0 0 false 0 0 .done with resVal := -12#12 } [HostInput.present 0x0ABCDEF#26]))
    (fun s => decide (resp s = (.done, .noError, 4084, 0))) = true := by
  decide

/-! ### The micro-operations -/

/-- V46, V46b. -/
theorem test_add :
    sees (exec .add (hosted (block 0b111110 0 false 0b111101 1 .run) [])) (fun s => s.block.p.toNat == 0b111011) = true ∧
    sees (exec .add (hosted (block 0b110000 0 false 0b100000 1 .run) [])) (fun s => s.block.p.toNat == 0b010000) = true := by
  decide
/-- V47, V47b. -/
theorem test_sub :
    sees (exec .sub (hosted (block 0 0 false 0b111101 1 .run) [])) (fun s => s.block.p.toNat == 0b000011) = true ∧
    sees (exec .sub (hosted (block 0 0 false 0b100000 1 .run) [])) (fun s => s.block.p.toNat == 0b100000) = true := by
  decide
/-- V48. -/
theorem test_hold :
    sees (exec .holdZeros (hosted (block 0b101010 0 false 5 1 .run) [])) (fun s => s.block.p.toNat == 0b101010) = true ∧
    sees (exec .holdOnes (hosted (block 0b101010 0 false 5 1 .run) [])) (fun s => s.block.p.toNat == 0b101010) = true := by
  decide
/-- V49, V49c. -/
theorem test_asr :
    sees (exec .asr (hosted (block 0b111110 0b100000 true 0 1 .run) []))
      (fun s => decide (data s = (0b111111, 0b010000, false, 1))) = true ∧
    sees (exec .asr (hosted (block 0b100000 0b000001 false 0 1 .run) []))
      (fun s => decide (data s = (0b110000, 0, true, 1))) = true := by
  decide
/-- V26, iteration 4. -/
theorem test_iter : sees (step (hosted (block 0b000001 0b100000 true 0b111101 3 .run) []))
    (fun s => decide (data s = (0b111111, 0b010000, false, 2)) && decide (s.block.phase = .run)) = true := by
  decide
/-- V4, iteration 3, with the trace on. -/
theorem test_iter_trace :
    let b : Block ⟨6, 12, true⟩ := { Block.reset ⟨6, 12, true⟩ with
      q := 0b001111#6, m := 0b111101#6, cnt := BitVec.ofNat _ 4, phase := .run }
    sees (exec .iter ⟨_, b⟩) (fun s => decide (s.block.trace.map (fun e => (e.i, e.tag, e.p.toNat, e.q.toNat, e.qm1)) =
      [(3, .pre, 0b000011, 0b001111, false), (3, .post, 0b000001, 0b100111, true)])) = true := by
  decide
/-- V26, FINISH. -/
theorem test_finish : sees (step (hosted (block 0b111111 0b110100 false 0b111101 0 .run) []))
    (fun s => decide (resp s = (.done, .noError, 0b111111110100, 0b111111110100)) && decide (S s.block.rspVal = -12)) = true := by
  decide

/-! ### The sequencer -/

/-- V51: a command in RUN is lost, the step is ITER. -/
theorem test_dropped : sees (step (hosted (block 0 0b000010 false 0b111101 5 .run) [HostInput.present 0x1005000#26]))
    (fun s => decide (data s = (0, 0b000001, false, 4)) && decide (resp s = (.run, .noError, 0, 0))) = true := by
  decide
/-- V52, V52b: reset wins over everything. -/
theorem test_reset : sees (step (hosted (block 1 2 true 3 2 .run) [{ HostInput.present 0x3001001#26 with rst := true }]))
    (fun s => decide (resp s = (.idle, .noError, 0, 0)) && !s.block.rspValid && s.block.cmdReady) = true := by
  decide
/-- V53: LOAD keeps the old response, which is no longer valid. -/
theorem test_accept : sees (step (hosted { block 0 0 false 0 0 .done with resBits := 31#12 } [HostInput.present 0x301F01F#26]))
    (fun s => decide (s.block.resBits.toNat = 31) && !s.block.rspValid && decide (data s = (0, 31, false, 6))) = true := by
  decide
/-- V54b. -/
theorem test_no_step : step (hosted (block 1 2 true 3 2 .done) []) = .next (hosted (block 1 2 true 3 2 .done) []) := rfl

/-! ### The functional level -/

/-- V2 as text, and the two causes of FORMAT. -/
theorem test_decodeText :
    decodeText "111011".toList = .ok (-5) ∧ decodeText [] = .error .format ∧ decodeText "11x011".toList = .error .format := by
  decide
/-- V30, V36, V45: all four pairs, both operands most negative, `N = 2`. -/
theorem test_multiply :
    multiply 13 (-6) 6 = .ok (-78, 0b111110110010#12) ∧ multiply (-32) (-32) 6 = .ok (-1024, 0b110000000000#12) ∧
    multiply (-2) 1 2 = .ok (2, 0b0010#4) ∧ multiply 1 1 0 = .error .config := by
  decide

/-! ### Placing a word for the next step -/

theorem test_place_command :
    sees (step (State.reset.withFetchWord 32 0x203B000)) (fun s => decide (resp s = (.done, .noError, 0b111111111011, 0))) = true := by
  decide
theorem test_place_pair :
    (State.reset.withFetchWord 8 0b10).block.selected = some .iter ∧ (State.reset.withFetchWord 8 0b10).block.q.getLsbD 0 = true ∧
    (State.reset.withFetchWord 8 0b10).block.qm1 = false := by
  decide
theorem test_place_selection :
    (State.reset.withFetchWord 8 0b10000).block.selected = some .reset ∧
    (State.reset.withFetchWord 8 0b00110).block.selected = some .iter ∧
    (State.reset.withFetchWord 8 0b00100).block.selected = some .finish ∧
    (State.reset.withFetchWord 8 0b01001).block.selected = some .accept := by
  decide

/-! ### Witnesses: a state and operands that meet each statement's hypotheses, clause by clause -/

/-- A Multiply in progress. -/
def running (cnt : Nat) : Block .reference := block 0 0b000010 false 0b111101 cnt .run
/-- A block that has answered. -/
def answered : Block .reference := { block 0 0 false 0 0 .done with resVal := -12#12, resErr := .config }
/-- A block with a command on its ports. -/
def waiting (word : Bits 26) : Block .reference := (presented word).block
/-- An instance with no bits. -/
def degenerate : Block ⟨0, 0, false⟩ := Block.reset _

theorem test_witness_ResetClearsControlState :
    ({ running 3 with host := [HostInput.reset 12] } : Block .reference).input.rst = true := by decide
theorem test_witness_ResetInRunAbandonsMultiply :
    let s : Block .reference := { running 3 with host := [HostInput.reset 12] }
    s.phase = .run ∧ s.input.rst = true ∧ s.host.tail = [] := by decide
theorem test_witness_StepFollowsSelectionTable :
    ({ running 3 with host := [HostInput.reset 12] } : Block .reference).input.rst = true ∧
    ((running 1).input.rst = false ∧ (running 1).phase = .run ∧ 0 < U (running 1).cnt) ∧
    ((running 0).input.rst = false ∧ (running 0).phase = .run ∧ U (running 0).cnt = 0) ∧
    ((waiting 0x1FFB000#26).input.rst = false ∧ (waiting 0x1FFB000#26).phase ≠ .run ∧ (waiting 0x1FFB000#26).input.cmdValid = true) ∧
    (answered.input.rst = false ∧ answered.phase ≠ .run ∧ answered.input.cmdValid = false) := by decide
theorem test_witness_StepRunsDecodedInstruction :
    decodeSelection (running 1).selectionWord = .ok .iter ∧ decodeSelection answered.selectionWord = .error .noStep := by
  constructor <;> rfl
theorem test_witness_AcceptPerformsPresentedCommand :
    ((waiting 0x0000000#26).phase ≠ .run ∧ (waiting 0x0000000#26).input.rst = false ∧ (waiting 0x0000000#26).input.cmdValid = true ∧
      (waiting 0x0000000#26).input.cmdOp = 0) ∧
    (waiting 0x1FFB000#26).input.cmdOp = 1 ∧ (waiting 0x203B000#26).input.cmdOp = 2 ∧ (waiting 0x3FFD004#26).input.cmdOp = 3 ∧
    raisedBy .reference (waiting 0x1020000#26).command = some .range := by decide
theorem test_witness_AcceptCompletesEveryCommand :
    (waiting 0x0ABCDEF#26).input.cmdOp = 0 ∧
    ((waiting 0x1FE0000#26).input.cmdOp = 1 ∧ inRange 6 (S (waiting 0x1FE0000#26).input.cmdA)) ∧
    ((waiting 0x2FFB000#26).input.cmdOp = 2 ∧ 1 ≤ Config.reference.n) ∧
    ((waiting 0x301FFE0#26).input.cmdOp = 3 ∧ inRange 6 (S (waiting 0x301FFE0#26).input.cmdA) ∧
      inRange 6 (S (waiting 0x301FFE0#26).input.cmdB)) := by decide
theorem test_witness_CommandPresentedInRunIsDropped :
    (running 5).phase = .run ∧ (running 5).input.rst = false ∧ (HostInput.present 0x1005000#26 : HostInput 12).rst = false := by decide
theorem test_witness_NopChangesNothing :
    (waiting 0x0ABCDEF#26).Accepting ∧ (waiting 0x0ABCDEF#26).input.cmdOp = 0 ∧ (running 5).phase = .run := by
  refine ⟨⟨?_, ?_, ?_⟩, ?_, ?_⟩ <;> decide
/-- Both ends of the range, and one beyond each; no width; and an accepted ENC. -/
theorem test_witness_EncAnswersEncodingOrRaises :
    (⟨0, 0, false⟩ : Config).n ≤ 0 ∧ 1 ≤ Config.reference.n ∧ inRange Config.reference.width 31 ∧ inRange Config.reference.width (-32) ∧
    ¬ inRange Config.reference.width 32 ∧ ¬ inRange Config.reference.width (-33) ∧
    ((waiting 0x1FFB000#26).Accepting ∧ (waiting 0x1FFB000#26).input.cmdOp = 1) := by
  refine ⟨?_, ?_, ?_, ?_, ?_, ?_, ⟨?_, ?_, ?_⟩, ?_⟩ <;> decide
theorem test_witness_DecAnswersValueOrRaises :
    (⟨-1, 0, false⟩ : Config).n ≤ 0 ∧ 1 ≤ (⟨1, 1, false⟩ : Config).n ∧
    ((waiting 0x2FFB000#26).Accepting ∧ (waiting 0x2FFB000#26).input.cmdOp = 2) := by
  refine ⟨?_, ?_, ⟨?_, ?_, ?_⟩, ?_⟩ <;> decide
theorem test_witness_MulLoadsOrRaises :
    (⟨0, 0, false⟩ : Config).n ≤ 0 ∧ 1 ≤ Config.reference.n ∧
    (inRange Config.reference.width (-32) ∧ inRange Config.reference.width 31) ∧
    (¬ inRange Config.reference.width 32 ∨ ¬ inRange Config.reference.width 0) ∧
    (¬ inRange Config.reference.width 0 ∨ ¬ inRange Config.reference.width (-33)) ∧
    ((waiting 0x3FFD004#26).Accepting ∧ (waiting 0x3FFD004#26).input.cmdOp = 3) := by
  refine ⟨?_, ?_, ?_, ?_, ?_, ⟨?_, ?_, ?_⟩, ?_⟩ <;> decide
theorem test_witness_RangeRaisedExactlyOutOfRange : 1 ≤ Config.reference.n ∧ 1 ≤ (⟨1, 2, false⟩ : Config).n := by decide
theorem test_witness_WidthErrorsComeBeforeRange :
    (⟨0, 0, false⟩ : Config).n ≤ 0 ∧
    (1 ≤ Config.reference.n ∧ ¬ inRange Config.reference.width 99 ∧ ¬ inRange Config.reference.width (-99)) ∧
    (exec .nop ⟨.reference, answered⟩ = .next ⟨.reference, answered⟩ ∧ answered.resErr = .config) :=
  ⟨by decide, by decide, rfl, rfl⟩
theorem test_witness_RaisedErrorIsTheWholeResponse :
    raisedBy .reference (.mul 32 1) = some .range ∧ raisedBy .reference (.enc 31) = none ∧
    raisedBy .reference (.dec 6 0b111011#6) = none ∧ raisedBy ⟨0, 0, false⟩ (.dec 0 0#0) = some .format := by decide
/-- The most negative multiplicand; a sum out of range; a state of V26 before its ADD. -/
theorem test_witness_AddWrapsAndDiscardsCarry :
    (block 0b110000 0 false 0b100000 2 .run).m = BitVec.intMin Config.reference.width ∧
    (1 ≤ Config.reference.n ∧ ¬ inRange 6 (S (block 0b011111 0 false 1 2 .run).p + S (block 0b011111 0 false 1 2 .run).m)) ∧
    (3 < 6 ∧ inRange 6 (-3) ∧ inRange 6 4 ∧ (-3 : Int) ≠ -2 ^ (6 - 1) ∧ (0b100000#6).getLsbD 0 = false ∧
      LoopInvariant (-3) 4 3 (0b000001#6) (0b100000#6) true) :=
  ⟨by decide, by decide, by decide, by decide, by decide, by decide, by decide, by decide, by decide, by decide⟩
theorem test_witness_SubWrapsAndDiscardsOverflow :
    1 ≤ Config.reference.n ∧ (block 0 0 false 0b100000 2 .run).m = BitVec.intMin Config.reference.width ∧ (block 7 0 false 0 2 .run).m = 0 := by decide
theorem test_witness_HoldLeavesEverything : 0 < 1 ∧ 5 < 6 := by decide
theorem test_witness_AsrShiftsCombinedRegister : 1 ≤ (⟨1, 2, false⟩ : Config).n ∧ 0 < (⟨1, 2, false⟩ : Config).width := by decide
theorem test_witness_PairSelectsActionThenShift : Config.reference.traceEn = false := by decide
theorem test_witness_IterActsShiftsAndCounts :
    1 ≤ Config.reference.n ∧ (⟨1, 2, false⟩ : Config).n = 1 ∧
    (0 < U (running 1).cnt ∧ (running 1).input.rst = false ∧ (running 1).phase = .run) := by decide
theorem test_witness_FinishAnswersProduct :
    (running 0).input.rst = false ∧ (running 0).phase = .run ∧ U (running 0).cnt = 0 := by decide
theorem test_witness_DecodeOfEncode :
    Config.reference.WellFormed ∧ (Instr.mul (-2048) 2047).wellFormed .reference = true ∧
    (Instr.dec 6 0b100000#6).wellFormed .reference = true := by decide
theorem test_witness_UnusedCommandBitsAreIgnored :
    (0xFFB#12).extractLsb' 0 Config.reference.width = (0x03B#12).extractLsb' 0 Config.reference.width := by decide
theorem test_witness_EncodeGivesTwosComplement :
    (0 : Int) ≤ 0 ∧ (1 : Int) ≤ 6 ∧ ¬ inRange (6 : Int).toNat 32 ∧ inRange (6 : Int).toNat (-32) ∧ inRange (1 : Int).toNat 0 := by decide
theorem test_witness_DecodeGivesSignedValue : (0 = 0 ∧ 1 ≤ 1) ∧ ∃ ch ∈ ['1', 'x'], ch ≠ '0' ∧ ch ≠ '1' :=
  ⟨by decide, 'x', by decide, by decide, by decide⟩
theorem test_witness_CodecRoundTrips : (1 : Int) ≤ 1 ∧ inRange (1 : Int).toNat (-1) := by decide
theorem test_witness_StringsRepresentRangeOnce : (-2 ^ (6 - 1) : Int) ≤ -32 ∧ (-32 : Int) ≤ 2 ^ (6 - 1) - 1 := by decide
/-- Both ends of the interval. -/
theorem test_witness_EncodeWrapsInsideMultiplier :
    inRange 6 (-32) ∧ ((-2 ^ 6 : Int) ≤ -64 ∧ (-64 : Int) ≤ 2 ^ 6 - 1) ∧ ((-2 ^ 6 : Int) ≤ 63 ∧ (63 : Int) ≤ 2 ^ 6 - 1) ∧
    (block 0 0 false 0b111101 1 .run).m = wrap Config.reference.width (-3) := by decide
theorem test_witness_RangeCheckInTermsOfBits : 1 ≤ 6 ∧ 6 ≤ 12 ∧ inRange 6 (S (0xFE0#12)) ∧ (∃ n w : Nat, 1 ≤ n ∧ n ≤ w ∧ w = n) :=
  ⟨by decide, by decide, by decide, 6, 6, by decide⟩

/-- The word's MUL is accepted by the reference instance, `N + 2` steps without a reset follow, and it raises nothing. -/
theorem test_witness_AcceptingMul :
    (waiting 0x3FFD004#26).AcceptingMul (-3) 4 ∧ (waiting 0x3FFD004#26).NoReset (Config.reference.width + 2) := by
  refine ⟨⟨⟨?_, ?_, ?_⟩, ?_, ?_, ?_, ?_⟩, ?_⟩
  all_goals first | decide | (intro h hh; revert h; decide)
/-- The most negative multiplicand, and a multiplier that is not 0. -/
theorem test_witness_MostNegativeMultiplicandNegatesProduct :
    (waiting 0x3FE0001#26).AcceptingMul (-32) 1 ∧ (-32 : Int) = -2 ^ (Config.reference.width - 1) ∧ (1 : Int) ≠ 0 := by
  refine ⟨⟨⟨?_, ?_, ?_⟩, ?_, ?_, ?_, ?_⟩, ?_, ?_⟩ <;> decide
theorem test_witness_ResponseHoldsUntilReplaced :
    ((running 1).input.rst = false ∧ (running 1).phase = .run ∧ 0 < U (running 1).cnt) ∧ U (running 0).cnt = 0 ∧
    (answered.phase ≠ .run ∧ answered.input.cmdValid = false) ∧ (waiting 0x0000000#26).input.cmdOp = 0 ∧
    (waiting 0x1FFB000#26).command = .enc (-5) ∧ (waiting 0x203B000#26).command = .dec 6 0b111011#6 ∧
    raisedBy .reference (waiting 0x3020001#26).command = some .range := by decide
theorem test_witness_StepsWriteOnlyWhatTheTableSays :
    raisedBy .reference (.mul (-32) 31) = none ∧ raisedBy ⟨0, 0, false⟩ (.mul 99 99) = some .config := by decide
theorem test_witness_runFor : runFor 2 ⟨.reference, answered⟩ = .next ⟨.reference, answered⟩ ∧ answered.phase ≠ .run :=
  ⟨rfl, by decide⟩
/-- The same with the trace on. -/
theorem test_witness_TraceHoldsTwoEventsAnIteration :
    let s : Block ⟨6, 12, true⟩ := { Block.reset _ with host := [HostInput.present 0x3FFD004#26] }
    s.AcceptingMul (-3) 4 ∧ s.NoReset 8 ∧ (Instr.finish ≠ .iter) ∧ exec .nop ⟨_, s⟩ = .next ⟨_, s⟩ := by
  refine ⟨⟨⟨?_, ?_, ?_⟩, ?_, ?_, ?_, ?_⟩, ?_, ?_, rfl⟩
  all_goals first | decide | (intro h hh; revert h; decide)
theorem test_witness_DatapathOutsideRunIsNeverSeen :
    (waiting 0x3FFD004#26).phase ≠ .run ∧
    sees (runFor 1 ⟨.reference, waiting 0x3FFD004#26⟩) (fun t => decide (t.block.phase = .run)) = true := by decide
theorem test_witness_EveryStepKeepsCounterInRange :
    (running 6).CounterInRange ∧ sees (step ⟨.reference, running 6⟩) (fun t => decide (t.block.phase = .run)) = true := by
  refine ⟨fun _ => ?_, ?_⟩ <;> decide
theorem test_witness_RunAlwaysFinishesWithoutError :
    (running 6).phase = .run ∧ 0 ≤ U (running 6).cnt ∧ U (running 6).cnt ≤ 6 ∧ (running 6).NoReset (U (running 6).cnt + 1) := by
  refine ⟨?_, ?_, ?_, ?_⟩
  all_goals first | decide | (intro h hh; revert h; decide)
theorem test_witness_MulTakesWidthPlusTwoSteps :
    (waiting 0x0000000#26).command = .nop ∧ raisedBy .reference (waiting 0x1020000#26).command = some .range ∧
    0 ≤ Config.reference.width ∧ Config.reference.width ≤ 6 := by decide
theorem test_witness_MachineAndFunctionAgree :
    (waiting 0x3FFD004#26).command = .mul (-3) 4 ∧ multiply (-3) 4 6 = .ok (-12, 0b111111110100#12) ∧
    (waiting 0x3020001#26).command = .mul 32 1 ∧ multiply 32 1 6 = .error .range := by decide
theorem test_witness_ProductLaw :
    (1 : Int) ≤ 6 ∧ inRange (6 : Int).toNat (-32) ∧ inRange (6 : Int).toNat 31 ∧ (-32 : Int) = -2 ^ ((6 : Int).toNat - 1) := by decide
/-- V26 before its first and its fourth iteration, and at its end. -/
theorem test_witness_LoopInvariantHolds :
    (1 ≤ 6 ∧ inRange 6 (-3) ∧ inRange 6 4 ∧ (-3 : Int) ≠ -2 ^ (6 - 1)) ∧
    (let s := block 0b000001 0b100000 true 0b111101 3 .run
     s.m = wrap Config.reference.width (-3) ∧ 0 < U s.cnt ∧ U s.cnt ≤ Config.reference.width ∧
      LoopInvariant (-3) 4 (Config.reference.width - U s.cnt) s.p s.q s.qm1) ∧
    LoopInvariant (-3) 4 0 (0#6) (0b000100#6) false ∧ LoopInvariant (-3) 4 6 (0b111111#6) (0b110100#6) false ∧
    LoopInvariant (-3) 4 2 (0#6) (0b000001#6) false :=
  ⟨by decide, ⟨by decide, by decide, by decide, ⟨by decide, by decide, by decide⟩⟩, ⟨by decide, by decide, by decide⟩,
    ⟨by decide, by decide, by decide⟩, ⟨by decide, by decide, by decide⟩⟩
theorem test_witness_ProductSymmetryAndZeroLaws :
    (1 : Int) ≤ 6 ∧ inRange (6 : Int).toNat (-32) ∧ inRange (6 : Int).toNat 1 ∧ multiply (-32) 1 6 ≠ multiply 1 (-32) 6 := by decide

end Sys2Proof.Tests
end

section
/-! SUPPORT. The slices of the combined register and of the product view (`10_state.md` R14), and the outputs of the block
(R20): what each answers. -/

namespace Sys2Proof

/-! ### The views' slices -/

@[simp] theorem combinedP_combined {n : Nat} (p q : Bits n) (b : Bool) : combinedP (combined p q b) = p := by
  refine BitVec.eq_of_getLsbD_eq fun i hi => ?_
  rw [combinedP, BitVec.getLsbD_extractLsb', getLsbD_combined, if_neg (by omega), if_neg (by omega),
    show n + 1 + i - 1 - n = i by omega]
  simp [hi]

@[simp] theorem combinedQ_combined {n : Nat} (p q : Bits n) (b : Bool) : combinedQ (combined p q b) = q := by
  refine BitVec.eq_of_getLsbD_eq fun i hi => ?_
  rw [combinedQ, BitVec.getLsbD_extractLsb', getLsbD_combined, if_neg (by omega), if_pos (by omega), Nat.add_sub_cancel_left]
  simp [hi]

@[simp] theorem combinedQM1_combined {n : Nat} (p q : Bits n) (b : Bool) : combinedQM1 (combined p q b) = b := by
  rw [combinedQM1, getLsbD_combined, if_pos rfl]

/-- The upper half of the product view is `P`. -/
theorem product_high {n : Nat} (p q : Bits n) : (product p q).extractLsb' n n = p := by
  rw [product, BitVec.extractLsb'_append_eq_of_le (Nat.le_refl n), Nat.sub_self, BitVec.extractLsb'_eq_self]

/-- The lower half of the product view is `Q`. -/
theorem product_low {n : Nat} (p q : Bits n) : (product p q).extractLsb' 0 n = q := by
  rw [product, BitVec.extractLsb'_append_eq_of_add_le (Nat.zero_add n).le, BitVec.extractLsb'_eq_self]

/-- Settles O36: each slice of a concatenation is one of its parts, and `combined` and `product` are these concatenations. -/
theorem combinedRegisterIsAView : Obligations.CombinedRegisterIsAView := by
  unfold Obligations.CombinedRegisterIsAView
  intro n p q qm1
  exact ⟨combinedP_combined p q qm1, combinedQ_combined p q qm1, combinedQM1_combined p q qm1,
    product_high p q, product_low p q, rfl, rfl⟩

namespace Machine

/-! ### The outputs -/

@[simp] theorem Block.cmdReady_eq_true_iff {c : Config} (s : Block c) : s.cmdReady = true ↔ s.phase ≠ .run :=
  decide_eq_true_iff

@[simp] theorem Block.rspValid_eq_true_iff {c : Config} (s : Block c) : s.rspValid = true ↔ s.phase = .done :=
  decide_eq_true_iff

/-- The outputs show PHASE and the response registers only: blocks that agree on these four agree on every output. -/
theorem Block.outputs_congr {c : Config} {s t : Block c} (hphase : t.phase = s.phase) (herr : t.resErr = s.resErr)
    (hval : t.resVal = s.resVal) (hbits : t.resBits = s.resBits) :
    t.cmdReady = s.cmdReady ∧ t.rspValid = s.rspValid ∧ t.rspErr = s.rspErr ∧ t.rspVal = s.rspVal ∧ t.rspBits = s.rspBits := by
  refine ⟨?_, ?_, ?_, hval, hbits⟩
  · rw [Block.cmdReady, Block.cmdReady, hphase]
  · rw [Block.rspValid, Block.rspValid, hphase]
  · rw [Block.rspErr, Block.rspErr, herr]

/-- Settles O37: each output reads PHASE or one response register, and a change of the datapath leaves all four in place. -/
theorem outputsAreFunctionsOfState : Obligations.OutputsAreFunctionsOfState := by
  unfold Obligations.OutputsAreFunctionsOfState
  intro c s
  refine ⟨s.cmdReady_eq_true_iff, s.rspValid_eq_true_iff, rfl, rfl, rfl, ?_⟩
  rintro p q m qm1 cnt _ rfl
  exact Block.outputs_congr rfl rfl rfl rfl

end Machine

end Sys2Proof
end

section
/-! SUPPORT. Encodings: the numeric codes (`30_encoding.md` R50, R51), the fields of a command word that are looked at (R43 to
R47, R53), the pair that selects an iteration's action (R48), and the value of a bit-string (R40). -/

namespace Sys2Proof

open Machine

/-! ### The numeric codes -/

theorem phaseCode_ne_three (ph : Phase) : phaseCode ph ≠ 3 := by
  cases ph <;> decide

/-- Settles O29: a phase's code reads back as the phase, and none of the three codes is 3. -/
theorem errorAndPhaseCodes : Obligations.ErrorAndPhaseCodes := by
  unfold Obligations.ErrorAndPhaseCodes
  exact ⟨rfl, rfl, rfl, rfl, rfl, rfl, rfl, rfl, fun ph => ⟨phaseOfCode_phaseCode ph, phaseCode_ne_three ph⟩⟩

/-! ### The command word, by its operation code -/

@[simp] theorem decodeCommand_nop (c : Config) (a b : Bits c.w) : decodeCommand c (0#2 ++ a ++ b) = .nop := by
  simp [decodeCommand, onCommand]

@[simp] theorem decodeCommand_enc (c : Config) (a b : Bits c.w) : decodeCommand c (1#2 ++ a ++ b) = .enc (S a) := by
  simp [decodeCommand, onCommand]

@[simp] theorem decodeCommand_dec (c : Config) (a b : Bits c.w) :
    decodeCommand c (2#2 ++ a ++ b) = .dec c.width (lowBits c.width a) := by
  simp [decodeCommand, onCommand]

/-- What a command word can carry: one of the four commands, its operands read from the operand fields. -/
theorem decodeCommand_cases (c : Config) (word : Bits (2 + c.w + c.w)) :
    decodeCommand c word = .nop ∨
    decodeCommand c word = .enc (S (commandA word)) ∨
    decodeCommand c word = .dec c.width (lowBits c.width (commandA word)) ∨
    decodeCommand c word = .mul (S (commandA word)) (S (commandB word)) := by
  unfold decodeCommand onCommand
  split_ifs <;> simp

/-- Settles O26: the decoded command is a function of the fields it uses; the encoder's words are the listed ones. -/
theorem unusedCommandBitsAreIgnored : Obligations.UnusedCommandBitsAreIgnored := by
  unfold Obligations.UnusedCommandBitsAreIgnored
  intro c a a' b b'
  refine ⟨?_, ?_, fun low => ?_, rfl, fun _ => rfl, fun _ => rfl⟩
  · rw [decodeCommand_nop, decodeCommand_nop]
  · rw [decodeCommand_enc, decodeCommand_enc]
  · rw [decodeCommand_dec, decodeCommand_dec, lowBits, lowBits, low]

/-- Settles O27: the listed words, evaluated. -/
theorem exampleCommandWords : Obligations.ExampleCommandWords := by
  unfold Obligations.ExampleCommandWords
  decide

/-- The operands a word carries fit their fields. -/
theorem decodeCommand_wellFormed (c : Config) (word : Bits (2 + c.w + c.w)) : (decodeCommand c word).wellFormed c = true := by
  obtain h | h | h | h := decodeCommand_cases c word <;> rw [h]
  case inl => rfl
  case inr.inl => exact fitsField_S _
  case inr.inr.inl => exact decide_eq_true rfl
  case inr.inr.inr => exact Bool.and_eq_true_iff.mpr ⟨fitsField_S _, fitsField_S _⟩

namespace Machine

/-! ### Every command has a next state -/

theorem exec_enc_next (value : Int) (s : State) : ∃ t, exec (.enc value) s = .next t := by
  obtain ⟨c, b⟩ := s
  cases h : encodeBits value c.n with
  | error e => exact ⟨_, exec_enc_error h⟩
  | ok str => exact ⟨_, exec_enc_ok h⟩

theorem exec_dec_next (len : Nat) (bits : Bits len) (s : State) : ∃ t, exec (.dec len bits) s = .next t := by
  obtain ⟨c, b⟩ := s
  cases h : decodeBits bits with
  | error e => exact ⟨_, exec_dec_error h⟩
  | ok x => exact ⟨_, exec_dec_ok h⟩

theorem exec_mul_next (x y : Int) (s : State) : ∃ t, exec (.mul x y) s = .next t := by
  obtain ⟨c, b⟩ := s
  cases h : raisedBy c (.mul x y) with
  | some e => exact ⟨_, exec_of_raisedBy h⟩
  | none => exact ⟨_, exec_mul_ok h⟩

/-- Whatever command a word carries, it has a next state. -/
theorem exec_decodeCommand_next (c : Config) (word : Bits (2 + c.w + c.w)) (s : State) :
    ∃ t, exec (decodeCommand c word) s = .next t := by
  obtain h | h | h | h := decodeCommand_cases c word <;> rw [h]
  case inl => exact ⟨s, rfl⟩
  case inr.inl => exact exec_enc_next _ s
  case inr.inr.inl => exact exec_dec_next _ _ s
  case inr.inr.inr => exact exec_mul_next _ _ s

end Machine

/-- Settles O25: a word's four readings, that their operands fit, and that each has a next state. -/
theorem noCommandWordIsReserved : Obligations.NoCommandWordIsReserved := by
  unfold Obligations.NoCommandWordIsReserved
  intro c word
  refine ⟨decodeCommand_wellFormed c word, ?_, exec_decodeCommand_next c word⟩
  obtain h | h | h | h := decodeCommand_cases c word
  · exact .inl h
  · exact .inr (.inl ⟨_, h⟩)
  · exact .inr (.inr (.inl ⟨_, h⟩))
  · exact .inr (.inr (.inr ⟨_, _, h⟩))

/-! ### The Booth pair -/

/-- The decoder reads the pair as its two bits, `Q[0]` first. -/
theorem decodePair_append (q0 qm1 : Bool) :
    decodePair (BitVec.ofBool q0 ++ BitVec.ofBool qm1) = onPair q0 qm1 .holdZeros .add .sub .holdOnes := by
  cases q0 <;> cases qm1 <;> rfl

namespace Machine

/-- The instruction a block's pair selects writes `P1` to `P`. -/
theorem exec_pair {c : Config} (b : Block c) :
    exec (decodePair (BitVec.ofBool (b.q.getLsbD 0) ++ BitVec.ofBool b.qm1)) ⟨c, b⟩ = .next ⟨c, b.setP b.p1⟩ := by
  rw [decodePair_append, Block.p1]
  cases b.q.getLsbD 0 <;> cases b.qm1 <;> rfl

/-- One ITER is the pair's action, the shift and the counter, but for the trace. -/
theorem exec_iter_eq {c : Config} (b : Block c) :
    exec .iter ⟨c, b⟩ = .next ⟨c, { (b.setP b.p1).shift with
      cnt := (b.setP b.p1).shift.cnt - 1
      trace := ((((b.setP b.p1).emit .pre).shift).emit .post).trace }⟩ := rfl

/-- With the trace off nothing is emitted. -/
theorem Block.emit_trace_off {c : Config} (b : Block c) (tag : Tag) (h : c.traceEn = false) : (b.emit tag).trace = b.trace := by
  rw [Block.emit_trace, h, if_neg Bool.false_ne_true]

end Machine

/-- Settles O21: the pair's instruction leaves `P1` in `P`, ASR shifts, and ITER does both and counts down. -/
theorem pairSelectsActionThenShift : Obligations.PairSelectsActionThenShift := by
  unfold Obligations.PairSelectsActionThenShift
  refine ⟨rfl, rfl, rfl, rfl, fun c s => ⟨s.setP s.p1, (s.setP s.p1).shift, _, fun off => ?_, exec_pair s, rfl, exec_iter_eq s⟩⟩
  rw [Block.emit_trace_off _ _ off, Block.shift_trace, Block.emit_trace_off _ _ off, Block.setP_trace]

/-! ### The value of a bit-string -/

/-- The signed value is the unsigned one, less `2^n` if the leading bit is 1. -/
theorem S_eq_U {n : Nat} (v : Bits n) : S v = if v.getLsbD (n - 1) then (U v : Int) - 2 ^ n else U v := by
  rw [S, BitVec.toInt_eq_msb_cond, BitVec.msb_eq_getLsbD_last]
  push_cast
  rfl

/-- The leading bit is the sign. -/
theorem leadingBit_iff {n : Nat} (v : Bits n) : v.getLsbD (n - 1) = true ↔ S v < 0 := by
  rw [← BitVec.msb_eq_getLsbD_last, BitVec.msb_eq_toInt, decide_eq_true_iff]

/-- The unsigned value is the leading bit's weight and the value of the bits below it. -/
theorem U_eq_leadingBit_add {n : Nat} (v : Bits n) (hn : 1 ≤ n) :
    U v = (if v.getLsbD (n - 1) then 2 ^ (n - 1) else 0) + U (v.extractLsb' 0 (n - 1)) := by
  have hv : v.toNat < 2 ^ (n - 1) * 2 := by rw [← pow_succ, Nat.sub_add_cancel hn]; exact v.isLt
  rw [← BitVec.msb_eq_getLsbD_last, BitVec.msb_eq_decide, U, U, BitVec.extractLsb'_toNat, Nat.shiftRight_zero]
  by_cases top : 2 ^ (n - 1) ≤ v.toNat
  · rw [if_pos (decide_eq_true top), Nat.mod_eq_sub_mod top, Nat.mod_eq_of_lt (by omega)]
    omega
  · rw [if_neg (by simpa using top), Nat.mod_eq_of_lt (by omega), Nat.zero_add]

/-- The signed value gives the leading bit the weight `-2^(n-1)`. -/
theorem S_eq_leadingBit_add {n : Nat} (v : Bits n) (hn : 1 ≤ n) :
    S v = -(if v.getLsbD (n - 1) then 1 else 0) * 2 ^ (n - 1) + U (v.extractLsb' 0 (n - 1)) := by
  rw [S_eq_U, U_eq_leadingBit_add v hn, two_pow_pred hn]
  split_ifs <;> push_cast <;> ring

/-- An integer of the range is the value of its wrapped vector and of no other. -/
theorem existsUnique_S_eq {n : Nat} {z : Int} (hn : 1 ≤ n) (h : inRange n z) : ∃! v : Bits n, S v = z :=
  ⟨wrap n z, S_wrap hn h, fun v hv => by rw [← hv, wrap_S]⟩

/-- Settles O32: the weights, the sign and the range of a string's value, and that the range is met once. -/
theorem stringsRepresentRangeOnce : Obligations.StringsRepresentRangeOnce := by
  unfold Obligations.StringsRepresentRangeOnce
  intro n hn
  refine ⟨fun v => ?_, fun z low high => existsUnique_S_eq hn ⟨low, high⟩⟩
  obtain ⟨low, high⟩ := inRange_S hn v
  exact ⟨S_eq_leadingBit_add v hn, S_eq_U v, leadingBit_iff v, low, high⟩

end Sys2Proof
end

section
/-! SUPPORT. The codec (`40_codec.md`): what Encode and Decode answer, by the string's signed value (R60 to R62), and on texts
(R41, R61); the unchecked Encode inside the multiplier (R63); the range check on an operand field's bits (R66); and the commands
ENC and DEC, functionally and in the accepting step (R64, R65). -/

namespace Sys2Proof

/-! ### The corner strings -/

theorem S_allOnes {n : Nat} (hn : 1 ≤ n) : S (BitVec.allOnes n) = -1 := by
  rw [S, BitVec.toInt_allOnes, if_pos (show 0 < n from hn)]

/-- `10...0` is the most negative value. -/
theorem S_mostNegative {n : Nat} (hn : 1 ≤ n) : S (BitVec.twoPow n (n - 1)) = -2 ^ (n - 1) :=
  BitVec.toInt_intMin_of_pos hn

/-- `01...1` is the most positive value. -/
theorem S_mostPositive (n : Nat) : S (BitVec.twoPow n (n - 1) - 1) = 2 ^ (n - 1) - 1 := BitVec.toInt_intMax

/-- The unsigned value of a string, from its signed value. -/
theorem U_eq_of_S_eq {n : Nat} {v : Bits n} {z : Int} (h : S v = z) :
    (U v : Int) = if z < 0 then z + 2 ^ n else z := by
  have sign : v.getLsbD (n - 1) = true ↔ z < 0 := h ▸ leadingBit_iff v
  have value := S_eq_U v
  rw [h, if_congr sign rfl rfl] at value
  split_ifs at value ⊢ <;> omega

namespace Machine

/-! ### Encode -/

theorem encodeBits_config {z n : Int} (hn : n ≤ 0) : encodeBits z n = .error .config := by
  rw [encodeBits, if_pos hn]

/-- Encode answers the string whose signed value is the given integer. -/
theorem encodeBits_of_S_eq {z n : Int} {v : Bits n.toNat} (hn : 1 ≤ n) (h : S v = z) : encodeBits z n = .ok v := by
  have hz : inRange n.toNat (S v) := inRange_S (by omega) v
  rw [← h, encodeBits_ok hn hz, wrap_S]

/-- Encode on the ends of the range and one beyond each, on 0 and on -1. -/
theorem encodeBits_corners {n : Int} (hn : 1 ≤ n) :
    encodeBits 0 n = .ok 0 ∧ encodeBits (-1) n = .ok (BitVec.allOnes n.toNat) ∧
    encodeBits (-2 ^ (n.toNat - 1)) n = .ok (BitVec.twoPow n.toNat (n.toNat - 1)) ∧
    encodeBits (2 ^ (n.toNat - 1) - 1) n = .ok (BitVec.twoPow n.toNat (n.toNat - 1) - 1) ∧
    encodeBits (2 ^ (n.toNat - 1)) n = .error .range ∧ encodeBits (-2 ^ (n.toNat - 1) - 1) n = .error .range := by
  have width : 1 ≤ n.toNat := by omega
  refine ⟨encodeBits_of_S_eq hn BitVec.toInt_zero, encodeBits_of_S_eq hn (S_allOnes width),
    encodeBits_of_S_eq hn (S_mostNegative width), encodeBits_of_S_eq hn (S_mostPositive _),
    encodeBits_range hn ?_, encodeBits_range hn ?_⟩
  · rintro ⟨-, high⟩; omega
  · rintro ⟨low, -⟩; omega

/-- Settles O30: an in-range value's string is its wrap, whose signed value it is; the corners by their signed values. -/
theorem encodeGivesTwosComplement : Obligations.EncodeGivesTwosComplement := by
  unfold Obligations.EncodeGivesTwosComplement
  intro value n
  refine ⟨encodeBits_config, encodeBits_range, fun hn inside => ?_, encodeBits_corners,
    encodeBits_of_S_eq (by decide) (by decide)⟩
  have value_wrap : S (wrap n.toNat value) = value := S_wrap (by omega) inside
  exact ⟨wrap n.toNat value, encodeBits_ok hn inside, rfl, value_wrap, U_eq_of_S_eq value_wrap,
    toText_length _, toText_digit _⟩

/-! ### Decode -/

theorem decodeBits_empty {n : Nat} (hn : n = 0) (v : Bits n) : decodeBits v = .error .format := by
  rw [decodeBits, if_pos hn]

theorem decodeBits_of_S_eq {n : Nat} {v : Bits n} {z : Int} (hn : 1 ≤ n) (h : S v = z) : decodeBits v = .ok z := by
  rw [decodeBits_ok hn, h]

/-- Decode looks at the length and the unsigned value only. -/
theorem decodeBits_congr {m n : Nat} {u : Bits m} {v : Bits n} (len : m = n) (value : U u = U v) :
    decodeBits u = decodeBits v := by
  subst len
  rw [BitVec.eq_of_toNat_eq value]

theorem decodeText_of_digits {cs : List Char} (h : ∀ ch ∈ cs, ch = '0' ∨ ch = '1') :
    decodeText cs = decodeBits (BitVec.ofNat cs.length (textValue cs)) := by
  rw [decodeText, if_pos (List.all_eq_true.mpr fun ch hch => by simpa using h ch hch)]

theorem decodeText_nil : decodeText [] = .error .format :=
  (decodeText_of_digits (List.forall_mem_nil _)).trans (decodeBits_empty rfl _)

theorem decodeText_of_otherChar {cs : List Char} (h : ∃ ch ∈ cs, ch ≠ '0' ∧ ch ≠ '1') : decodeText cs = .error .format := by
  obtain ⟨ch, mem, not0, not1⟩ := h
  rw [decodeText, if_neg]
  intro all
  simpa [not0, not1] using List.all_eq_true.mp all ch mem

/-- The text of a string decodes as the string. -/
theorem decodeText_toText {n : Nat} (v : Bits n) : decodeText (toText v) = decodeBits v := by
  rw [decodeText_of_digits (toText_digit v)]
  refine decodeBits_congr (toText_length v) ?_
  rw [U, BitVec.toNat_ofNat, textValue_toText, toText_length, Nat.mod_eq_of_lt v.isLt]

/-- Settles O31: Decode answers the signed value, read off the leading bit; a text of digits is the string it spells. -/
theorem decodeGivesSignedValue : Obligations.DecodeGivesSignedValue := by
  unfold Obligations.DecodeGivesSignedValue
  refine ⟨fun n bits => ⟨fun hn => decodeBits_empty hn bits, fun hn => ⟨?_, decodeBits_ok hn bits, inRange_S hn bits⟩⟩,
    decodeText_nil, fun cs => decodeText_of_otherChar, fun n bits => decodeText_toText bits, fun n hn => ?_, ?_⟩
  · rw [decodeBits_ok hn, S_eq_U]
  · exact ⟨decodeBits_of_S_eq hn BitVec.toInt_zero, decodeBits_of_S_eq hn (S_allOnes hn),
      decodeBits_of_S_eq hn (S_mostNegative hn), decodeBits_of_S_eq hn (S_mostPositive n)⟩
  · exact (decodeText_toText 0b111011#6).trans (decodeBits_of_S_eq (by decide) (by decide))

/-- Settles O33: `S` and `wrap` are inverse to each other between strings and in-range integers. -/
theorem codecRoundTrips : Obligations.CodecRoundTrips := by
  unfold Obligations.CodecRoundTrips
  intro n hn
  have width : 1 ≤ n.toNat := by omega
  refine ⟨fun x inside => ⟨wrap n.toNat x, encodeBits_ok hn inside, ?_⟩, fun v => ⟨S v, inRange_S width v, ?_, ?_⟩⟩
  · exact decodeBits_of_S_eq width (S_wrap width inside)
  · exact decodeBits_ok width v
  · exact encodeBits_of_S_eq hn rfl

end Machine

/-! ### Encode inside the multiplier -/

/-- A sum of two in-range integers: within `n + 1` bits, short of the upper end. -/
theorem add_bounds {n : Nat} {x a : Int} (hn : 1 ≤ n) (hx : inRange n x) (ha : inRange n a) :
    -2 ^ n ≤ x + a ∧ x + a ≤ 2 ^ n - 2 := by
  have half := two_pow_pred hn
  constructor <;> omega

/-- A difference of two in-range integers: within `n + 1` bits, short of the lower end. -/
theorem sub_bounds {n : Nat} {x a : Int} (hn : 1 ≤ n) (hx : inRange n x) (ha : inRange n a) :
    -2 ^ n + 1 ≤ x - a ∧ x - a ≤ 2 ^ n - 1 := by
  have half := two_pow_pred hn
  constructor <;> omega

/-- "If negative, add `2^n`" gives a number of `n` digits on the whole interval. -/
theorem unsigned_bounds {n : Nat} {z : Int} (low : -2 ^ n ≤ z) (high : z ≤ 2 ^ n - 1) :
    0 ≤ (if z < 0 then z + 2 ^ n else z) ∧ (if z < 0 then z + 2 ^ n else z) < 2 ^ n := by
  split_ifs <;> constructor <;> omega

namespace Machine

/-- The sum ADD writes, with the integer multiplicand for `M`. -/
theorem Block.sum_eq {c : Config} {b : Block c} {a : Int} (hm : b.m = wrap c.width a) : b.sum = wrap c.width (S b.p + a) := by
  rw [Block.sum, hm, wrap_add_wrap]

/-- The difference SUB writes, with the integer multiplicand for `M`. -/
theorem Block.difference_eq {c : Config} {b : Block c} {a : Int} (hm : b.m = wrap c.width a) :
    b.difference = wrap c.width (S b.p - a) := by
  rw [Block.difference, hm, wrap_sub_wrap]

theorem exec_add_eq {c : Config} (b : Block c) : exec .add ⟨c, b⟩ = .next ⟨c, b.setP b.sum⟩ := rfl

theorem exec_sub_eq {c : Config} (b : Block c) : exec .sub ⟨c, b⟩ = .next ⟨c, b.setP b.difference⟩ := rfl

/-- Settles O34: the bounds from the two operands' ranges, and `wrap` for the unchecked Encode and for the register `M`. -/
theorem encodeWrapsInsideMultiplier : Obligations.EncodeWrapsInsideMultiplier := by
  unfold Obligations.EncodeWrapsInsideMultiplier
  intro n p a hn ha
  refine ⟨add_bounds hn (inRange_S hn p) ha, sub_bounds hn (inRange_S hn p) ha,
    fun z low high => ⟨ofNat_unsigned low, unsigned_bounds low high⟩, wrap_add_wrap _ _, wrap_sub_wrap _ _,
    fun c s hm => ⟨?_, ?_⟩⟩
  · rw [exec_add_eq, Block.sum_eq hm, Block.setP]
  · rw [exec_sub_eq, Block.difference_eq hm, Block.setP]

end Machine

/-! ### The range check on a field's bits -/

/-- The low bits of a field are its value wrapped. -/
theorem lowBits_eq_wrap_S {n w : Nat} (hw : n ≤ w) (f : Bits w) : lowBits n f = wrap n (S f) :=
  (BitVec.setWidth_eq_extractLsb' hw).symm.trans (BitVec.signExtend_eq_setWidth_of_le f hw).symm

/-- A field's value is in range exactly when the field is the sign extension of its low bits. -/
theorem inRange_S_iff_signExtend {n w : Nat} {f : Bits w} (hn : 1 ≤ n) (hw : n ≤ w) :
    inRange n (S f) ↔ (lowBits n f).signExtend w = f := by
  have extended : S ((lowBits n f).signExtend w) = S (lowBits n f) := BitVec.toInt_signExtend_of_le hw
  constructor
  · intro inside
    refine BitVec.eq_of_toInt_eq (extended.trans ?_)
    rw [lowBits_eq_wrap_S hw, S_wrap hn inside]
  · intro h
    rw [← h, extended]
    exact inRange_S hn _

/-- A field is the sign extension of its low `n` bits exactly when its bits from `n - 1` up are all equal. -/
theorem signExtend_lowBits_eq_iff {n w : Nat} {f : Bits w} (hn : 1 ≤ n) :
    (lowBits n f).signExtend w = f ↔ ∀ i, n - 1 ≤ i → i < w → f.getLsbD i = f.getLsbD (n - 1) := by
  have bit : ∀ i, i < w →
      ((lowBits n f).signExtend w).getLsbD i = if i < n then f.getLsbD i else f.getLsbD (n - 1) := by
    intro i hi
    rw [BitVec.getLsbD_signExtend, BitVec.msb_eq_getLsbD_last, lowBits, BitVec.getLsbD_extractLsb', BitVec.getLsbD_extractLsb']
    simp only [hi, show n - 1 < n by omega, decide_true, Bool.true_and, Nat.zero_add]
    split_ifs with low <;> simp [low]
  constructor
  · intro h i top hi
    rcases Nat.eq_or_lt_of_le top with rfl | above
    · rfl
    · have := bit i hi
      rwa [h, if_neg (by omega)] at this
  · intro h
    refine BitVec.eq_of_getLsbD_eq fun i hi => ?_
    rw [bit i hi]
    split_ifs with low
    · rfl
    · exact (h i (by omega) hi).symm

namespace Machine

/-- Settles O35: in range means a sign extension of the low bits, which are then the value wrapped. -/
theorem rangeCheckInTermsOfBits : Obligations.RangeCheckInTermsOfBits := by
  unfold Obligations.RangeCheckInTermsOfBits
  intro n w f hn hw
  refine ⟨(inRange_S_iff_signExtend hn hw).trans (signExtend_lowBits_eq_iff hn), fun inside => ?_, ?_⟩
  · exact (encodeBits_ok (by omega) inside).trans (congrArg Except.ok (lowBits_eq_wrap_S hw f).symm)
  · rintro rfl
    exact inRange_S hn f

/-! ### ENC and DEC -/

theorem Config.width_pos {c : Config} (hn : 1 ≤ c.n) : 1 ≤ c.width := (Int.le_toNat (by omega)).mpr hn

/-- The accepting step performs the command on the ports (R91). -/
theorem step_accepting {c : Config} {b : Block c} (h : b.Accepting) : step ⟨c, b⟩ = tickOutcome (exec b.command ⟨c, b⟩) := by
  rw [step_of_selected (Block.selected_accept h), exec_accept]

theorem Block.command_enc {c : Config} {b : Block c} (h : b.input.cmdOp = 1) : b.command = .enc (S b.input.cmdA) := by
  rw [Block.command, HostInput.word, commandWord, h]
  exact decodeCommand_enc c _ _

theorem Block.command_dec {c : Config} {b : Block c} (h : b.input.cmdOp = 2) :
    b.command = .dec c.width (lowBits c.width b.input.cmdA) := by
  rw [Block.command, HostInput.word, commandWord, h]
  exact decodeCommand_dec c _ _

/-- Settles O11: Encode's answer is ENC's response, and the accepting step performs ENC of the operand field. -/
theorem encAnswersEncodingOrRaises : Obligations.EncAnswersEncodingOrRaises := by
  unfold Obligations.EncAnswersEncodingOrRaises
  refine ⟨fun c s v => ⟨fun hn => ?_, fun hn outside => ?_, fun hn inside => ?_⟩, decodeCommand_enc,
    fun c s accepting op => ?_⟩
  · exact exec_enc_error (encodeBits_config hn)
  · exact exec_enc_error (encodeBits_range hn outside)
  · have encoded := encodeBits_ok hn inside
    exact ⟨wrap c.width v, S_wrap (Config.width_pos hn) inside, encoded, exec_enc_ok encoded⟩
  · rw [step_accepting accepting, Block.command_enc op]

/-- Settles O12: Decode's answer is DEC's response, and the accepting step performs DEC of the operand field's low bits. -/
theorem decAnswersValueOrRaises : Obligations.DecAnswersValueOrRaises := by
  unfold Obligations.DecAnswersValueOrRaises
  refine ⟨fun c s bits => ⟨fun hn => ?_, fun hn => ?_⟩, decodeCommand_dec, fun c s accepting op => ?_⟩
  · exact exec_dec_error (decodeBits_empty (Int.toNat_of_nonpos hn) bits)
  · have decoded : decodeBits bits = .ok (S bits) := decodeBits_ok (Config.width_pos hn) bits
    have extended : S (bits.signExtend (c.width + c.width)) = S bits := BitVec.toInt_signExtend_of_le (Nat.le_add_left _ _)
    exact ⟨bits.signExtend _, rfl, by rw [decoded, extended], exec_dec_ok decoded⟩
  · rw [step_accepting accepting, Block.command_dec op]

end Machine

end Sys2Proof
end

section
/-! SUPPORT. The multiplier's commands and steps (`41_multiplier.md` R71 to R77), each as the exact next state: MUL's checks and
LOAD, the wrapped sum and difference, the shift, one iteration, FINISH. -/

namespace Sys2Proof

/-! ### The wrapped sum and difference -/

/-- The wrap forgets a multiple of `2^n`. -/
theorem wrap_add_two_pow (n : Nat) (z : Int) : wrap n (z + 2 ^ n) = wrap n z := by
  refine BitVec.eq_of_toInt_eq ?_
  rw [BitVec.toInt_ofInt, BitVec.toInt_ofInt]
  exact_mod_cast Int.add_bmod_right z (2 ^ n)

/-- An integer of one more bit that is out of range wraps to a value of the other sign (R73). -/
theorem S_wrap_neg_iff_of_not_inRange {n : Nat} {z : Int} (hn : 1 ≤ n) (low : -2 ^ n ≤ z) (high : z ≤ 2 ^ n - 1)
    (outside : ¬ inRange n z) : S (wrap n z) < 0 ↔ 0 ≤ z := by
  have half := two_pow_pred hn
  rcases lt_or_ge z 0 with neg | nonneg
  · have inside : inRange n (z + 2 ^ n) := by constructor <;> omega
    rw [← wrap_add_two_pow, S_wrap hn inside]
    omega
  · have inside : inRange n (z - 2 ^ n) := by constructor <;> omega
    rw [show z = z - 2 ^ n + 2 ^ n by ring, wrap_add_two_pow, S_wrap hn inside]
    omega

/-- The carry out of the top bit is discarded: the wrapped sum is the low bits of the unsigned sum (R73). -/
theorem wrap_add_eq_unsigned {n : Nat} (p m : Bits n) : wrap n (S p + S m) = BitVec.ofNat n (U p + U m) := by
  rw [wrap_add, BitVec.ofNat_add, BitVec.ofNat_toNat, BitVec.ofNat_toNat, BitVec.setWidth_eq, BitVec.setWidth_eq]

/-- The wrapped difference is the low bits of the unsigned sum with the complement, plus 1 (R74). -/
theorem wrap_sub_eq_unsigned {n : Nat} (p m : Bits n) :
    wrap n (S p - S m) = BitVec.ofNat n (U p + U (~~~ m) + 1) := by
  rw [wrap_sub, BitVec.sub_eq_add_neg, BitVec.neg_eq_not_add, BitVec.ofNat_add, BitVec.ofNat_add, BitVec.ofNat_toNat,
    BitVec.ofNat_toNat, BitVec.setWidth_eq, BitVec.setWidth_eq, BitVec.add_assoc]

/-- Adding `10...0` inverts the top bit: no carry reaches any bit, and the one out of the top is discarded. -/
theorem add_intMin {n : Nat} (p : Bits n) : p + BitVec.intMin n = p ^^^ BitVec.twoPow n (n - 1) := by
  refine BitVec.eq_of_getLsbD_eq fun i hi => ?_
  have noCarry : BitVec.carry i p (BitVec.intMin n) false = false := by
    have low : (BitVec.intMin n).toNat % 2 ^ i = 0 := by
      rw [BitVec.toNat_intMin_of_pos (by omega)]
      exact Nat.mod_eq_zero_of_dvd (pow_dvd_pow 2 (by omega))
    rw [BitVec.carry, low]
    simpa using Nat.mod_lt _ (Nat.two_pow_pos i)
  rw [BitVec.getLsbD_add hi, noCarry, Bool.xor_false, BitVec.getLsbD_xor]
  rfl

namespace Machine

/-- Settles O18: the difference of vectors; `10...0` is its own negation, and 0 is neutral. -/
theorem subWrapsAndDiscardsOverflow : Obligations.SubWrapsAndDiscardsOverflow := by
  unfold Obligations.SubWrapsAndDiscardsOverflow
  intro c s
  refine ⟨rfl, wrap_sub_eq_unsigned _ _, fun hn => ?_, fun hm => ?_, fun hm => ?_⟩
  · have width := Config.width_pos hn
    exact sub_bounds width (inRange_S width _) (inRange_S width _)
  · have same : s.difference = s.sum := by
      rw [Block.difference, Block.sum, wrap_sub, wrap_add, hm, BitVec.sub_eq_add_neg, BitVec.neg_intMin]
    have inverted : s.sum = s.p ^^^ BitVec.twoPow c.width (c.width - 1) := by rw [Block.sum, wrap_add, hm, add_intMin]
    exact ⟨by rw [exec_sub_eq, exec_add_eq, same], same.trans inverted⟩
  · have sub_zero : s.difference = s.p := by rw [Block.difference, wrap_sub, hm]; exact BitVec.sub_zero _
    have add_zero : s.sum = s.p := by rw [Block.sum, wrap_add, hm]; exact BitVec.add_zero _
    rw [exec_sub_eq, exec_add_eq, sub_zero, add_zero]
    exact ⟨rfl, rfl⟩

/-! ### MUL -/

@[simp] theorem decodeCommand_mul (c : Config) (a b : Bits c.w) : decodeCommand c (3#2 ++ a ++ b) = .mul (S a) (S b) := by
  simp [decodeCommand, onCommand]

theorem Block.command_mul {c : Config} {b : Block c} (h : b.input.cmdOp = 3) :
    b.command = .mul (S b.input.cmdA) (S b.input.cmdB) := by
  rw [Block.command, HostInput.word, commandWord, h]
  exact decodeCommand_mul c _ _

theorem raisedBy_mul_config {c : Config} {x y : Int} (hn : c.n ≤ 0) : raisedBy c (.mul x y) = some .config := if_pos hn

theorem raisedBy_mul_range {c : Config} {x y : Int} (hn : 1 ≤ c.n) (outside : ¬ inRange c.width x ∨ ¬ inRange c.width y) :
    raisedBy c (.mul x y) = some .range := by
  rw [raisedBy, if_neg (by omega), if_neg (by tauto)]

theorem raisedBy_mul_none {c : Config} {x y : Int} (hn : 1 ≤ c.n) (hx : inRange c.width x) (hy : inRange c.width y) :
    raisedBy c (.mul x y) = none := by
  rw [raisedBy, if_neg (by omega), if_pos ⟨hx, hy⟩]

/-- Settles O13: the checks by what they raise, LOAD's six values, and the accepting step. -/
theorem mulLoadsOrRaises : Obligations.MulLoadsOrRaises := by
  unfold Obligations.MulLoadsOrRaises
  refine ⟨fun c s x y => ⟨fun hn => ?_, fun hn outside => ?_, fun hn hx hy => ?_⟩, decodeCommand_mul,
    fun c s accepting op => ?_⟩
  · exact exec_of_raisedBy (raisedBy_mul_config hn)
  · exact exec_of_raisedBy (raisedBy_mul_range hn outside)
  · have width := Config.width_pos hn
    exact ⟨wrap c.width x, wrap c.width y, BitVec.ofNat c.cntWidth c.width, encodeBits_ok hn hx, S_wrap width hx,
      encodeBits_ok hn hy, S_wrap width hy, Config.U_width c, exec_mul_ok (raisedBy_mul_none hn hx hy)⟩
  · rw [step_accepting accepting, Block.command_mul op]

/-! ### The shift -/

/-- The shift, as one register. -/
theorem Block.shift_combined {c : Config} (b : Block c) :
    combined b.shift.p b.shift.q b.shift.qm1 = (combined b.p b.q b.qm1).sshiftRight 1 := combined_slices _

/-- `P` after the shift, bit by bit: `P[N-1]` stays, and every other bit comes from one place higher. -/
theorem getLsbD_shift_p {c : Config} (b : Block c) {i : Nat} (hi : i < c.width) :
    b.shift.p.getLsbD i = if i = c.width - 1 then b.p.getLsbD (c.width - 1) else b.p.getLsbD (i + 1) := by
  rw [Block.shift_p, combinedP, BitVec.getLsbD_extractLsb', getLsbD_shiftCombined _ _ _ (by omega) _ (by omega),
    decide_eq_true hi, Bool.true_and, if_neg (show ¬ c.width + 1 + i < c.width by omega),
    show c.width + 1 + i - c.width = i + 1 by omega]
  exact if_congr (by omega) rfl rfl

/-- `Q` after the shift, bit by bit: `P[0]` comes in at the top, and every other bit from one place higher. -/
theorem getLsbD_shift_q {c : Config} (b : Block c) {i : Nat} (hi : i < c.width) :
    b.shift.q.getLsbD i = if i = c.width - 1 then b.p.getLsbD 0 else b.q.getLsbD (i + 1) := by
  rw [Block.shift_q, combinedQ, BitVec.getLsbD_extractLsb', getLsbD_shiftCombined _ _ _ (by omega) _ (by omega),
    decide_eq_true hi, Bool.true_and, if_neg (show ¬ 1 + i = c.width + c.width by omega)]
  by_cases last : i = c.width - 1
  · rw [if_neg (by omega), if_pos last, show 1 + i - c.width = 0 by omega]
  · rw [if_pos (by omega), if_neg last, Nat.add_comm]

theorem Block.shift_qm1_eq {c : Config} (b : Block c) (hn : 1 ≤ c.width) : b.shift.qm1 = b.q.getLsbD 0 :=
  combinedQM1_shift _ _ _ hn

theorem exec_asr_eq {c : Config} (b : Block c) : exec .asr ⟨c, b⟩ = .next ⟨c, b.shift⟩ := rfl

/-- Settles O20: the shifted registers, as one register, bit by bit and as integers; ITER shifts `P1`. -/
theorem asrShiftsCombinedRegister : Obligations.AsrShiftsCombinedRegister := by
  unfold Obligations.AsrShiftsCombinedRegister
  intro c s
  refine ⟨s.shift.p, s.shift.q, s.shift.qm1, exec_asr_eq s, fun hn => ?_, (s.setP s.p1).shift, _, exec_asr_eq _, exec_iter_eq s⟩
  have width := Config.width_pos hn
  refine ⟨s.shift_combined, fun i hi => ⟨getLsbD_shift_p s hi, getLsbD_shift_q s hi⟩, s.shift_qm1_eq width, ?_, ?_⟩
  · rw [Block.shift_p, combinedP_shift _ _ _ width, S_sshiftRight_one]
  · have halved := S_sshiftRight_one (product s.p s.q)
    rwa [← product_shift _ _ s.qm1 width] at halved

/-! ### One iteration -/

/-- At `N = 1` both registers take the accumulator's one bit. -/
theorem Block.shift_of_width_one {c : Config} (b : Block c) (hw : c.width = 1) : b.shift.p = b.p ∧ b.shift.q = b.p := by
  refine ⟨BitVec.eq_of_getLsbD_eq fun i hi => ?_, BitVec.eq_of_getLsbD_eq fun i hi => ?_⟩
  · have last : i = c.width - 1 := by omega
    rw [getLsbD_shift_p b hi, if_pos last, ← last]
  · rw [getLsbD_shift_q b hi, if_pos (by omega), show i = 0 by omega]

/-- What an ITER leaves in the trace: the events before and after the shift (R97). -/
theorem Block.iter_trace {c : Config} (b : Block c) (v : Bits c.width) :
    ((((b.setP v).emit .pre).shift).emit .post).trace =
      if c.traceEn then b.trace ++ [(b.setP v).event .pre, (b.setP v).shift.event .post] else b.trace := by
  rw [Block.emit_trace, Block.shift_trace, Block.emit_trace]
  split_ifs
  · exact List.append_assoc _ _ _
  · rfl

/-- Settles O22: `P1` by the pair, the shift of `P1 ‖ Q ‖ QM1`, the counter, the two events. -/
theorem iterActsShiftsAndCounts : Obligations.IterActsShiftsAndCounts := by
  unfold Obligations.IterActsShiftsAndCounts
  intro c s
  refine ⟨s.p1, (s.setP s.p1).shift.p, (s.setP s.p1).shift.q, (s.setP s.p1).shift.qm1, s.p1_eq,
    fun _ => Block.shift_combined _, fun hn => ?_, U_pred, ?_, fun hr hp hc => ?_⟩
  · have hw : c.width = 1 := by rw [Config.width, hn]; rfl
    obtain ⟨shifted_p, shifted_q⟩ := (s.setP s.p1).shift_of_width_one hw
    exact ⟨shifted_p, shifted_q, Block.shift_qm1_eq _ hw.ge⟩
  · rw [exec_iter_eq, Block.iter_trace]
    rfl
  · exact step_of_selected (by rw [Block.selected_run hr hp, if_pos hc])

/-! ### FINISH -/

theorem exec_finish_eq {c : Config} (b : Block c) :
    exec .finish ⟨c, b⟩ = .next ⟨c, b.complete .noError (product b.p b.q) (product b.p b.q)⟩ := rfl

theorem Block.selected_finish {c : Config} {b : Block c} (hr : b.input.rst = false) (hp : b.phase = .run) (hc : U b.cnt = 0) :
    b.selected = some .finish := by
  rw [Block.selected_run hr hp, if_neg (by omega)]

/-- Settles O23: the response is the product view, whose value `S_product` gives. -/
theorem finishAnswersProduct : Obligations.FinishAnswersProduct := by
  unfold Obligations.FinishAnswersProduct
  exact fun c s => ⟨exec_finish_eq s, S_product s.p s.q, fun hr hp hc => step_of_selected (Block.selected_finish hr hp hc)⟩

end Machine

end Sys2Proof
end

section
/-! SUPPORT. The multiplication as arithmetic (`41_multiplier.md` R70, R75, R80 to R82): the multiplier's bits as the iterations
read them, the loop invariant, and the product law. The lemmas are about the algorithm's triple `(P, Q, QM1)`, which ITER follows
by `exec_iter`. -/

namespace Sys2Proof

/-! ### Slices as numbers -/

/-- The top bits of a vector, as a signed number. -/
theorem S_extractLsb'_top {w i m : Nat} (v : Bits w) (hw : m + i = w) (hm : 1 ≤ m) : S (v.extractLsb' i m) = S v / 2 ^ i := by
  subst hw
  have split : v.extractLsb' i m ++ v.extractLsb' 0 i = v :=
    (BitVec.extractLsb'_append_extractLsb'_eq_extractLsb' (Nat.zero_add i).symm).trans BitVec.extractLsb'_eq_self
  have value : S v = U (v.extractLsb' 0 i) + S (v.extractLsb' i m) * 2 ^ i := by
    conv_lhs => rw [← split, S, BitVec.toInt_append, if_neg (by simpa using Nat.one_le_iff_ne_zero.mp hm)]
    ring
  have low : (U (v.extractLsb' 0 i) : Int) / 2 ^ i = 0 :=
    Int.ediv_eq_zero_of_lt (Int.natCast_nonneg _) (by exact_mod_cast (v.extractLsb' 0 i).isLt)
  rw [value, Int.add_mul_ediv_right _ _ (by positivity), low, zero_add]

/-- The upper half of the product, as a number. -/
theorem S_product_div {n : Nat} (p q : Bits n) : S (product p q) / 2 ^ n = S p := by
  have low : (U q : Int) / 2 ^ n = 0 := Int.ediv_eq_zero_of_lt (Int.natCast_nonneg _) (by exact_mod_cast q.isLt)
  rw [S_product, add_comm, Int.add_mul_ediv_right _ _ (by positivity), low, zero_add]

theorem getLsbD_lowBits {n : Nat} (v : Bits n) (k i : Nat) : (lowBits k v).getLsbD i = (decide (i < k) && v.getLsbD i) := by
  rw [lowBits, BitVec.getLsbD_extractLsb', Nat.zero_add]

/-- The bit below bit `k`, 0 below the lowest: the leading bit of the low `k` bits. -/
def bitBelow {n : Nat} (v : Bits n) (k : Nat) : Bool := if k = 0 then false else v.getLsbD (k - 1)

theorem leadingBit_lowBits {n : Nat} (v : Bits n) (k : Nat) : (lowBits k v).getLsbD (k - 1) = bitBelow v k := by
  rw [getLsbD_lowBits, bitBelow]
  split_ifs with h
  · simp [h]
  · simp [show k - 1 < k by omega]

/-- The digit a pair stands for: +1 for ADD, -1 for SUB, 0 for HOLD. -/
def boothDigit (q0 qm1 : Bool) : Int := qm1.toInt - q0.toInt

/-- The leading bit of the low `k` bits, taken off their unsigned value. -/
theorem S_lowBits_eq_U {n : Nat} (v : Bits n) (k : Nat) :
    S (lowBits k v) = U (lowBits k v) - (bitBelow v k).toInt * 2 ^ k := by
  rw [S_eq_U, leadingBit_lowBits]
  cases bitBelow v k <;> simp

/-- One bit more: the bits below it are taken as unsigned. -/
theorem S_lowBits_succ_eq_U {n : Nat} (v : Bits n) (k : Nat) :
    S (lowBits (k + 1) v) = U (lowBits k v) - (v.getLsbD k).toInt * 2 ^ k := by
  have lower : (lowBits (k + 1) v).extractLsb' 0 k = lowBits k v := by
    refine BitVec.eq_of_getLsbD_eq fun i hi => ?_
    rw [BitVec.getLsbD_extractLsb', Nat.zero_add, getLsbD_lowBits, getLsbD_lowBits]
    simp [hi, show i < k + 1 by omega]
  have digit : (if v.getLsbD k then 1 else 0 : Int) = (v.getLsbD k).toInt := by cases v.getLsbD k <;> rfl
  rw [S_eq_leadingBit_add _ (Nat.succ_pos k), leadingBit_lowBits, Nat.succ_sub_one, lower, bitBelow, if_neg (Nat.succ_ne_zero k),
    Nat.succ_sub_one, digit]
  ring

/-- The value of the low bits grows by the pair's digit at the new bit's weight. -/
theorem S_lowBits_succ {n : Nat} (v : Bits n) (k : Nat) :
    S (lowBits (k + 1) v) = S (lowBits k v) + boothDigit (v.getLsbD k) (bitBelow v k) * 2 ^ k := by
  rw [S_lowBits_succ_eq_U, S_lowBits_eq_U, boothDigit]
  ring

/-- The value of the low `k` bits has the sign of the bit below bit `k`. -/
theorem S_lowBits_neg_iff {n : Nat} (v : Bits n) (k : Nat) : S (lowBits k v) < 0 ↔ bitBelow v k = true := by
  rw [← leadingBit_lowBits, leadingBit_iff]

namespace Machine

/-! ### The triple's updates -/

@[simp] theorem boothAction_q {n : Nat} (a : Int) (t : Triple n) : (boothAction a t).q = t.q := by
  unfold boothAction; split_ifs <;> rfl

@[simp] theorem boothAction_qm1 {n : Nat} (a : Int) (t : Triple n) : (boothAction a t).qm1 = t.qm1 := by
  unfold boothAction; split_ifs <;> rfl

@[simp] theorem boothShift_qm1 {n : Nat} (t : Triple n) : (boothShift t).qm1 = t.q.getLsbD 0 := rfl

/-- Below its top bit the shifted `Q` holds the bits from one place higher. -/
theorem getLsbD_boothShift_q {n : Nat} (t : Triple n) {i : Nat} (hi : i + 1 < n) :
    (boothShift t).q.getLsbD i = t.q.getLsbD (i + 1) := by
  have inserted : (if t.p.getLsbD 0 then BitVec.twoPow n (n - 1) else 0).getLsbD i = false := by
    split_ifs
    · rw [BitVec.getLsbD_twoPow, decide_eq_false (show ¬ n - 1 = i by omega), Bool.and_false]
    · exact BitVec.getLsbD_zero
  rw [boothShift, BitVec.getLsbD_or, inserted, Bool.or_false, BitVec.getLsbD_ushiftRight, Nat.add_comm]

/-- The shift halves the product, rounding down. -/
theorem S_product_boothShift {n : Nat} (t : Triple n) (hn : 1 ≤ n) :
    S (product (boothShift t).p (boothShift t).q) = S (product t.p t.q) / 2 := by
  rw [← S_sshiftRight_one, ← product_shift t.p t.q t.qm1 hn, combinedP_shift _ _ _ hn, combinedQ_shift _ _ _ hn]
  rfl

/-- Where the sum or the difference stays in range, the pair's action adds its digit times the multiplicand. -/
theorem S_boothAction_p {n : Nat} {a : Int} {t : Triple n} (hn : 1 ≤ n) (add : t.qm1 = true → inRange n (S t.p + a))
    (sub : t.qm1 = false → inRange n (S t.p - a)) :
    S (boothAction a t).p = S t.p + boothDigit (t.q.getLsbD 0) t.qm1 * a := by
  unfold boothAction boothDigit
  cases h0 : t.q.getLsbD 0 <;> cases h1 : t.qm1
  case false.false | true.true => simp
  case false.true => simp [S_wrap hn (add h1)]
  case true.false => simpa [sub_eq_add_neg] using S_wrap hn (sub h1)

theorem boothRun_succ {n : Nat} (a : Int) (k : Nat) (t : Triple n) :
    boothRun a (k + 1) t = boothIteration a (boothRun a k t) := by
  induction k generalizing t with
  | zero => rfl
  | succ k ih => exact ih (boothIteration a t)

/-- The action looks at the multiplicand modulo `2^n` only. -/
theorem boothAction_congr {n : Nat} {a a' : Int} (h : wrap n a = wrap n a') (t : Triple n) :
    boothAction a t = boothAction a' t := by
  have add : wrap n (S t.p + a) = wrap n (S t.p + a') := by rw [← wrap_add_wrap, h, wrap_add_wrap]
  have sub : wrap n (S t.p - a) = wrap n (S t.p - a') := by rw [← wrap_sub_wrap, h, wrap_sub_wrap]
  rw [boothAction, boothAction, add, sub]

theorem boothRun_congr {n : Nat} {a a' : Int} (h : wrap n a = wrap n a') (k : Nat) (t : Triple n) :
    boothRun a k t = boothRun a' k t := by
  induction k with
  | zero => rfl
  | succ k ih => rw [boothRun_succ, boothRun_succ, ih, boothIteration, boothIteration, boothAction_congr h]

/-! ### The multiplier's bits -/

/-- After `k` iterations `Q` and `QM1` hold the bits of the multiplier still to be read, whatever the multiplicand: the last two
lines of the loop invariant (R81). -/
structure PendingBits {n : Nat} (v : Bits n) (k : Nat) (t : Triple n) : Prop where
  rest : lowBits (n - k) t.q = v.extractLsb' k (n - k)
  guard : t.qm1 = bitBelow v k

section
variable {n k : Nat} {v : Bits n} {t : Triple n}

theorem PendingBits.getLsbD (h : PendingBits v k t) {i : Nat} (hi : i < n - k) : t.q.getLsbD i = v.getLsbD (k + i) := by
  have bit := congrArg (fun u => BitVec.getLsbD u i) h.rest
  simpa [getLsbD_lowBits, BitVec.getLsbD_extractLsb', hi] using bit

/-- The pair is the multiplier's bit `k` and the bit below it. -/
theorem PendingBits.q0 (h : PendingBits v k t) (hk : k < n) : t.q.getLsbD 0 = v.getLsbD k := h.getLsbD (by omega)

theorem PendingBits.iteration (h : PendingBits v k t) (hk : k < n) (a : Int) : PendingBits v (k + 1) (boothIteration a t) where
  rest := by
    refine BitVec.eq_of_getLsbD_eq fun i hi => ?_
    rw [getLsbD_lowBits, BitVec.getLsbD_extractLsb', boothIteration, getLsbD_boothShift_q _ (by omega), boothAction_q,
      h.getLsbD (by omega), show k + (i + 1) = k + 1 + i by omega]
  guard := by
    rw [boothIteration, boothShift_qm1, boothAction_q, h.q0 hk, bitBelow, if_neg (Nat.succ_ne_zero k), Nat.add_sub_cancel]

end

theorem pendingBits_boothStart (n : Nat) (b : Int) : PendingBits (wrap n b) 0 (boothStart n b) := ⟨rfl, rfl⟩

theorem pendingBits_boothRun {n k : Nat} (a b : Int) (hk : k ≤ n) :
    PendingBits (wrap n b) k (boothRun a k (boothStart n b)) := by
  induction k with
  | zero => exact pendingBits_boothStart n b
  | succ k ih => rw [boothRun_succ]; exact (ih (by omega)).iteration hk a

/-- The pair of iteration `k + 1` is read off the multiplier. -/
theorem boothRun_pair {n k : Nat} (a b : Int) (hk : k < n) :
    ((boothRun a k (boothStart n b)).q.getLsbD 0, (boothRun a k (boothStart n b)).qm1) =
      ((wrap n b).getLsbD k, bitBelow (wrap n b) k) := by
  have pending := pendingBits_boothRun a b hk.le
  rw [pending.q0 hk, pending.guard]

/-- Settles O19: HOLD is the identity; the pairs are those of the bits of 0 and of -1. -/
theorem holdLeavesEverything : Obligations.HoldLeavesEverything := by
  unfold Obligations.HoldLeavesEverything
  refine ⟨fun c s => ⟨rfl, rfl⟩, fun n k a hk => ⟨?_, ?_⟩⟩
  · rw [boothRun_pair a 0 hk]
    simp [bitBelow]
  · have ones : wrap n (-1) = BitVec.allOnes n := by rw [← S_allOnes (n := n) (by omega), wrap_S]
    rw [boothRun_pair a (-1) hk, ones]
    simp [bitBelow, hk, show k - 1 < n by omega]

end Machine

end Sys2Proof
end

section
/-! SUPPORT. The loop invariant of R81 for every multiplicand of `[-2^(N-1) + 1, 2^(N-1)]`: it holds at the start, every iteration
keeps it, ADD and SUB stay in range under it. The most negative multiplicand is `2^(N-1)` modulo `2^N`, which the invariant covers,
and so the product law follows for every in-range pair (R80, R82). -/

namespace Sys2Proof

/-- The multiplicands for which neither ADD nor SUB overflows: the range, with `2^(n-1)` in the place of `-2^(n-1)`. -/
abbrev inActingRange (n : Nat) (a : Int) : Prop := -2 ^ (n - 1) < a ∧ a ≤ 2 ^ (n - 1)

theorem inActingRange_of_inRange {n : Nat} {a : Int} (ha : inRange n a) (notMin : a ≠ -2 ^ (n - 1)) : inActingRange n a := by
  constructor <;> omega

/-- The integer a multiplicand acts as (R80). -/
def actingMultiplicand (n : Nat) (a : Int) : Int := if a = -2 ^ (n - 1) then 2 ^ (n - 1) else a

theorem actingMultiplicand_min (n : Nat) : actingMultiplicand n (-2 ^ (n - 1)) = 2 ^ (n - 1) := if_pos rfl

theorem actingMultiplicand_of_ne {n : Nat} {a : Int} (notMin : a ≠ -2 ^ (n - 1)) : actingMultiplicand n a = a := if_neg notMin

theorem actingMultiplicand_zero (n : Nat) : actingMultiplicand n 0 = 0 := by
  have positive : (0 : Int) < 2 ^ (n - 1) := by positivity
  exact actingMultiplicand_of_ne (by omega)

theorem inActingRange_actingMultiplicand {n : Nat} {a : Int} (ha : inRange n a) : inActingRange n (actingMultiplicand n a) := by
  by_cases h : a = -2 ^ (n - 1)
  · have positive : (0 : Int) < 2 ^ (n - 1) := by positivity
    rw [h, actingMultiplicand_min]
    constructor <;> omega
  · rw [actingMultiplicand_of_ne h]
    exact inActingRange_of_inRange ha h

/-- Modulo `2^n` a multiplicand is the integer it acts as. -/
theorem wrap_actingMultiplicand {n : Nat} (hn : 1 ≤ n) (a : Int) : wrap n (actingMultiplicand n a) = wrap n a := by
  by_cases h : a = -2 ^ (n - 1)
  · rw [h, actingMultiplicand_min, ← wrap_add_two_pow n (-2 ^ (n - 1)), two_pow_pred hn]
    congr 1
    ring
  · rw [actingMultiplicand_of_ne h]

namespace Machine

/-! ### What the invariant says of the accumulator -/

section
variable {n k : Nat} {a b : Int} {p q : Bits n} {qm1 : Bool}

theorem LoopInvariant.pending (h : LoopInvariant a b k p q qm1) : PendingBits (wrap n b) k ⟨p, q, qm1⟩ := ⟨h.rest, h.guard⟩

/-- The top `N + k` bits, as the product shifted. -/
theorem LoopInvariant.S_product_div_eq (h : LoopInvariant a b k p q qm1) (hn : 1 ≤ n) (hk : k ≤ n) :
    S (product p q) / 2 ^ (n - k) = a * S (lowBits k (wrap n b)) := by
  rw [← h.top, S_extractLsb'_top _ (by omega) (by omega)]

/-- The accumulator is the partial product, shifted out of its low `k` places. -/
theorem LoopInvariant.S_p_eq (h : LoopInvariant a b k p q qm1) (hn : 1 ≤ n) (hk : k ≤ n) :
    S p = a * S (lowBits k (wrap n b)) / 2 ^ k := by
  rw [← h.S_product_div_eq hn hk, Int.ediv_ediv_of_nonneg (by positivity), ← pow_add, Nat.sub_add_cancel hk,
    S_product_div]

/-- The multiplier's part already read is negative exactly when `QM1` is 1. -/
theorem LoopInvariant.part_neg_iff (h : LoopInvariant a b k p q qm1) : S (lowBits k (wrap n b)) < 0 ↔ qm1 = true := by
  have guard : qm1 = bitBelow (wrap n b) k := h.guard
  rw [S_lowBits_neg_iff, guard]

/-- `|S(P)| <= |a|`: the part of the multiplier already read is at most `2^k` in size. -/
theorem LoopInvariant.abs_S_p_le (h : LoopInvariant a b k p q qm1) (hn : 1 ≤ n) (hk : k ≤ n) : |S p| ≤ |a| := by
  have weight : (0 : Int) < 2 ^ k := by positivity
  have part : |S (lowBits k (wrap n b))| ≤ 2 ^ k := by
    have low := BitVec.le_two_mul_toInt (x := lowBits k (wrap n b))
    have high := BitVec.two_mul_toInt_lt (x := lowBits k (wrap n b))
    rw [abs_le, S]
    constructor <;> omega
  have size : |a * S (lowBits k (wrap n b))| ≤ |a| * 2 ^ k := by
    rw [abs_mul]
    exact mul_le_mul_of_nonneg_left part (abs_nonneg a)
  obtain ⟨low, high⟩ := abs_le.mp size
  rw [h.S_p_eq hn hk, abs_le]
  exact ⟨(Int.le_ediv_iff_mul_le weight).mpr (by linarith), Int.ediv_le_of_le_mul weight high⟩

/-- Where an ADD can be pending the accumulator is 0 or has the sign opposite to the multiplicand's. -/
theorem LoopInvariant.add_inRange (h : LoopInvariant a b k p q qm1) (hn : 1 ≤ n) (hk : k ≤ n) (ha : inActingRange n a)
    (guard : qm1 = true) : inRange n (S p + a) := by
  have weight : (0 : Int) < 2 ^ k := by positivity
  have neg := h.part_neg_iff.mpr guard
  have value := h.S_p_eq hn hk
  obtain ⟨low, high⟩ := inRange_S hn p
  rcases lt_trichotomy a 0 with ha0 | rfl | ha0
  · have : 0 ≤ S p := value ▸ Int.ediv_nonneg (mul_pos_of_neg_of_neg ha0 neg).le weight.le
    constructor <;> omega
  · constructor <;> omega
  · have : S p < 0 := value ▸ Int.ediv_neg_of_neg_of_pos (mul_neg_of_pos_of_neg ha0 neg) weight
    constructor <;> omega

/-- Where a SUB can be pending the accumulator is 0 or has the multiplicand's sign. -/
theorem LoopInvariant.sub_inRange (h : LoopInvariant a b k p q qm1) (hn : 1 ≤ n) (hk : k ≤ n) (ha : inActingRange n a)
    (guard : qm1 = false) : inRange n (S p - a) := by
  have weight : (0 : Int) < 2 ^ k := by positivity
  have nonneg : 0 ≤ S (lowBits k (wrap n b)) := by
    rw [← not_lt, h.part_neg_iff, guard]
    exact Bool.false_ne_true
  have value := h.S_p_eq hn hk
  obtain ⟨low, high⟩ := inRange_S hn p
  rcases lt_or_ge a 0 with ha0 | ha0
  · have : S p ≤ 0 := value ▸ Int.ediv_le_of_le_mul weight (by rw [zero_mul]; exact mul_nonpos_of_nonpos_of_nonneg ha0.le nonneg)
    constructor <;> omega
  · have : 0 ≤ S p := value ▸ Int.ediv_nonneg (mul_nonneg ha0 nonneg) weight.le
    constructor <;> omega

/-- At the end the invariant speaks of the whole product and the whole multiplier. -/
theorem LoopInvariant.S_product_eq (h : LoopInvariant a b n p q qm1) (hn : 1 ≤ n) (hb : inRange n b) :
    S (product p q) = a * b := by
  have top := h.S_product_div_eq hn le_rfl
  rwa [Nat.sub_self, pow_zero, Int.ediv_one, lowBits, BitVec.extractLsb'_eq_self, S_wrap hn hb] at top

end

/-! ### The invariant holds throughout -/

/-- LOAD's values meet the invariant: nothing is read yet, and the accumulator is 0. -/
theorem loopInvariant_start {n : Nat} (a b : Int) (hn : 1 ≤ n) : LoopInvariant a b 0 (0 : Bits n) (wrap n b) false where
  top := by
    rw [S_extractLsb'_top _ (by omega) (by omega), Nat.sub_zero, S_product_div]
    simp [BitVec.toInt_zero_length]
  rest := (pendingBits_boothStart n b).rest
  guard := rfl

/-- Every iteration keeps the invariant: the pair's digit, times the multiplicand, comes in at weight `2^k`, and the shift moves
the weights on by one place. -/
theorem LoopInvariant.iteration {n k : Nat} {a b : Int} {t : Triple n} (h : LoopInvariant a b k t.p t.q t.qm1)
    (ha : inActingRange n a) (hk : k < n) :
    LoopInvariant a b (k + 1) (boothIteration a t).p (boothIteration a t).q (boothIteration a t).qm1 where
  top := by
    have hn : 1 ≤ n := by omega
    have place : (2 : Int) * 2 ^ (n - (k + 1)) = 2 ^ (n - k) := by
      rw [← pow_succ', show n - (k + 1) + 1 = n - k by omega]
    have weight : (2 : Int) ^ n = 2 ^ k * 2 ^ (n - k) := by rw [← pow_add, Nat.add_sub_cancel' hk.le]
    have action := S_boothAction_p (a := a) hn (h.add_inRange hn hk.le ha) (h.sub_inRange hn hk.le ha)
    rw [h.pending.q0 hk, h.pending.guard] at action
    calc S ((product (boothIteration a t).p (boothIteration a t).q).extractLsb' (n - (k + 1)) (n + (k + 1)))
        = S (product (boothAction a t).p t.q) / 2 ^ (n - k) := by
          rw [S_extractLsb'_top _ (by omega) (by omega), boothIteration, S_product_boothShift _ hn, boothAction_q,
            Int.ediv_ediv_of_nonneg (by norm_num), place]
      _ = (S (product t.p t.q) + boothDigit ((wrap n b).getLsbD k) (bitBelow (wrap n b) k) * a * 2 ^ k * 2 ^ (n - k)) /
            2 ^ (n - k) := by
          rw [S_product, S_product, action, weight]
          ring_nf
      _ = a * S (lowBits k (wrap n b)) + boothDigit ((wrap n b).getLsbD k) (bitBelow (wrap n b) k) * a * 2 ^ k := by
          rw [Int.add_mul_ediv_right _ _ (by positivity), h.S_product_div_eq hn hk.le]
      _ = a * S (lowBits (k + 1) (wrap n b)) := by
          rw [S_lowBits_succ]
          ring
  rest := (h.pending.iteration hk a).rest
  guard := (h.pending.iteration hk a).guard

theorem loopInvariant_boothRun {n k : Nat} {a b : Int} (hn : 1 ≤ n) (ha : inActingRange n a) (hk : k ≤ n) :
    LoopInvariant a b k (boothRun a k (boothStart n b)).p (boothRun a k (boothStart n b)).q
      (boothRun a k (boothStart n b)).qm1 := by
  induction k with
  | zero => exact loopInvariant_start a b hn
  | succ k ih => rw [boothRun_succ]; exact (ih (by omega)).iteration ha hk

/-- Settles O17: the sum of vectors, its bounds and its sign; in a run the invariant keeps it in range. -/
theorem addWrapsAndDiscardsCarry : Obligations.AddWrapsAndDiscardsCarry := by
  unfold Obligations.AddWrapsAndDiscardsCarry
  refine ⟨fun c s => ⟨exec_add_eq s, wrap_add_eq_unsigned _ _, fun hn => ?_, fun hn outside => ?_, fun hm => ?_⟩,
    fun n k a b p q hk ha hb notMin _ inv => ?_⟩
  · have width := Config.width_pos hn
    exact add_bounds width (inRange_S width _) (inRange_S width _)
  · have width := Config.width_pos hn
    obtain ⟨low, high⟩ := add_bounds width (inRange_S width s.p) (inRange_S width s.m)
    exact S_wrap_neg_iff_of_not_inRange width low (by omega) outside
  · exact (wrap_add s.p s.m).trans (hm ▸ add_intMin s.p)
  · exact inv.add_inRange (by omega) hk.le (inActingRange_of_inRange ha notMin) rfl

/-- Settles O50: `loopInvariant_start`, `LoopInvariant.iteration` through the machine's ITER, and what the invariant bounds. -/
theorem loopInvariantHolds : Obligations.LoopInvariantHolds := by
  unfold Obligations.LoopInvariantHolds
  refine fun a b => ⟨fun n hn _ _ => loopInvariant_start a b hn, fun c s hn ha _ notMin hm pos le inv => ?_,
    fun n k p q qm1 hn ha hb notMin hk inv => ?_⟩
  · have next := LoopInvariant.iteration (t := s.triple) inv (inActingRange_of_inRange ha notMin) (by omega)
    have count : c.width - U s.cnt + 1 = c.width - U (s.cnt - 1) := by rw [U_pred pos]; omega
    rw [count] at next
    exact ⟨_, _, _, s.cnt - 1, _, U_pred pos, next, exec_iter s hn hm⟩
  · have acting := inActingRange_of_inRange ha notMin
    refine ⟨inv.abs_S_p_le hn hk, fun _ _ => inv.add_inRange hn hk acting, fun _ _ => inv.sub_inRange hn hk acting, ?_⟩
    rintro rfl
    exact inv.S_product_eq hn hb

/-! ### The product law -/

/-- The product of the algorithm, for every in-range pair (R80). -/
theorem S_product_boothRun {n : Nat} {a b : Int} (hn : 1 ≤ n) (ha : inRange n a) (hb : inRange n b) :
    S (product (boothRun a n (boothStart n b)).p (boothRun a n (boothStart n b)).q) = actingMultiplicand n a * b := by
  rw [← boothRun_congr (wrap_actingMultiplicand hn a)]
  exact (loopInvariant_boothRun hn (inActingRange_actingMultiplicand ha) le_rfl).S_product_eq hn hb

theorem multiply_config {a b n : Int} (hn : n ≤ 0) : multiply a b n = .error .config := by
  rw [multiply, if_pos hn]

theorem multiply_range {a b n : Int} (hn : 1 ≤ n) (outside : ¬ inRange n.toNat a ∨ ¬ inRange n.toNat b) :
    multiply a b n = .error .range := by
  rw [multiply, if_neg (by omega), if_pos outside]

/-- What Multiply answers when it raises nothing: the algorithm's last triple, read as a product. -/
theorem multiply_ok {a b n : Int} (hn : 1 ≤ n) (ha : inRange n.toNat a) (hb : inRange n.toNat b) :
    multiply a b n =
      .ok (S (product (boothRun a n.toNat (boothStart n.toNat b)).p (boothRun a n.toNat (boothStart n.toNat b)).q),
        product (boothRun a n.toNat (boothStart n.toNat b)).p (boothRun a n.toNat (boothStart n.toNat b)).q) := by
  rw [multiply, if_neg (by omega), if_neg (by tauto)]
  rfl

/-- Multiply, by the integer the multiplicand acts as. -/
theorem multiply_eq {a b n : Int} (hn : 1 ≤ n) (ha : inRange n.toNat a) (hb : inRange n.toNat b) :
    multiply a b n = .ok (actingMultiplicand n.toNat a * b, wrap _ (actingMultiplicand n.toNat a * b)) := by
  rw [multiply_ok hn ha hb, ← S_product_boothRun (by omega) ha hb, wrap_S]

/-- The acting product is the product, unless the multiplicand is the most negative value and the multiplier is not 0. -/
theorem actingMultiplicand_mul_eq_iff {n : Nat} {a b : Int} :
    actingMultiplicand n a * b = a * b ↔ a ≠ -2 ^ (n - 1) ∨ b = 0 := by
  have positive : (0 : Int) < 2 ^ (n - 1) := by positivity
  by_cases h : a = -2 ^ (n - 1)
  · rw [h, actingMultiplicand_min, mul_eq_mul_right_iff]
    simp only [ne_eq, not_true_eq_false, false_or, or_iff_right_iff_imp]
    omega
  · simp [actingMultiplicand_of_ne h, h]

/-- Settles O49: `multiply_eq`, and when the acting product is the product. -/
theorem productLaw : Obligations.ProductLaw := by
  unfold Obligations.ProductLaw
  refine fun a b n hn ha hb => ⟨actingMultiplicand n.toNat a, rfl, multiply_eq hn ha hb, actingMultiplicand_mul_eq_iff, ?_⟩
  rintro rfl
  rw [actingMultiplicand_min]
  ring

/-- The two orders act alike exactly when both or neither operand is the most negative value, or one is 0 (R82). -/
theorem actingMultiplicand_mul_comm_iff {n : Nat} {a b : Int} :
    actingMultiplicand n a * b = actingMultiplicand n b * a ↔
      ((a = -2 ^ (n - 1) ↔ b = -2 ^ (n - 1)) ∨ a = 0 ∨ b = 0) := by
  have zero_ne : (0 : Int) ≠ -2 ^ (n - 1) := by
    have positive : (0 : Int) < 2 ^ (n - 1) := by positivity
    omega
  by_cases hb : b = -2 ^ (n - 1)
  · by_cases ha : a = -2 ^ (n - 1)
    · simp [ha, hb]
    · rw [actingMultiplicand_of_ne ha, eq_comm, mul_comm a b, actingMultiplicand_mul_eq_iff]
      simp [ha, hb, zero_ne.symm]
  · rw [actingMultiplicand_of_ne hb, mul_comm b a, actingMultiplicand_mul_eq_iff]
    by_cases ha : a = -2 ^ (n - 1)
    · simp [ha, hb, zero_ne.symm]
    · simp [ha, hb]

theorem inRange_zero {n : Nat} : inRange n 0 := by
  have positive : (0 : Int) < 2 ^ (n - 1) := by positivity
  constructor <;> omega

/-- Settles O51: by the product law, both answers are the acting products; the literals, evaluated. -/
theorem productSymmetryAndZeroLaws : Obligations.ProductSymmetryAndZeroLaws := by
  unfold Obligations.ProductSymmetryAndZeroLaws
  refine ⟨fun a b n hn ha hb => ⟨?_, ?_, ?_⟩, by decide⟩
  · rw [multiply_eq hn ha inRange_zero, mul_zero]
    rfl
  · rw [multiply_eq hn inRange_zero hb, actingMultiplicand_zero, zero_mul]
    rfl
  · rw [multiply_eq hn ha hb, multiply_eq hn hb ha, ← actingMultiplicand_mul_comm_iff]
    simp only [Except.ok.injEq, Prod.mk.injEq, and_iff_left_iff_imp]
    exact congrArg (wrap _)

end Machine

end Sys2Proof
end

section
/-! SUPPORT. Runs of a Multiply (`41_multiplier.md` R78, R79): the counter counts down to FINISH in any state of RUN, and from an
accepted MUL the machine answers what the function Multiply answers, with its trace. -/

namespace Sys2Proof.Machine

/-! ### The countdown -/

/-- A step in RUN, with iterations still to do and no reset: RUN goes on, and the counter goes down by one. -/
theorem step_iter {c : Config} {b : Block c} (hp : b.phase = .run) (hr : b.input.rst = false) (hc : 0 < U b.cnt) :
    ∃ t : Block c, step ⟨c, b⟩ = .next ⟨c, t⟩ ∧ t.phase = .run ∧ U t.cnt = U b.cnt - 1 ∧ t.host = b.host.tail := by
  have selected : b.selected = some .iter := by rw [Block.selected_run hr hp, if_pos hc]
  rw [step_of_selected selected, exec_iter_eq, tickOutcome_next]
  exact ⟨_, rfl, hp, U_pred hc, rfl⟩

/-- A step in RUN with no iteration left and no reset is FINISH. -/
theorem step_finish {c : Config} {b : Block c} (hp : b.phase = .run) (hr : b.input.rst = false) (hc : U b.cnt = 0) :
    step ⟨c, b⟩ = .next ⟨c, (b.complete .noError (product b.p b.q) (product b.p b.q)).tick⟩ := by
  rw [step_of_selected (Block.selected_finish hr hp hc), exec_finish_eq, tickOutcome_next]

/-- `k` steps of the countdown. -/
theorem runFor_countsDown {c : Config} {k : Nat} {b : Block c} (hp : b.phase = .run) (hk : k ≤ U b.cnt) (hr : b.NoReset k) :
    ∃ t : Block c, runFor k ⟨c, b⟩ = .next ⟨c, t⟩ ∧ t.phase = .run ∧ U t.cnt = U b.cnt - k ∧ t.host = b.host.drop k := by
  induction k generalizing b with
  | zero => exact ⟨b, rfl, hp, rfl, rfl⟩
  | succ k ih =>
    obtain ⟨u, stepped, run, count, host⟩ := step_iter hp hr.rst (by omega)
    obtain ⟨t, ran, phase, counted, dropped⟩ := ih run (by omega) (hr.of_tail host)
    refine ⟨t, (runFor_succ k stepped).trans ran, phase, by omega, ?_⟩
    rw [dropped, host, List.drop_tail]

/-- After `k` steps of the countdown the next step is ITER, or FINISH at 0. -/
theorem runFor_selected {c : Config} {k : Nat} {b : Block c} (hp : b.phase = .run) (hk : k ≤ U b.cnt) (hr : b.NoReset (k + 1)) :
    ∃ t : Block c, runFor k ⟨c, b⟩ = .next ⟨c, t⟩ ∧ t.phase = .run ∧ U t.cnt = U b.cnt - k ∧
      t.selected = some (if k < U b.cnt then .iter else .finish) := by
  obtain ⟨t, ran, phase, count, host⟩ := runFor_countsDown hp hk (hr.mono (Nat.le_succ k))
  have noReset : t.input.rst = false := by rw [Block.input, host]; exact rst_drop hr
  refine ⟨t, ran, phase, count, ?_⟩
  rw [Block.selected_run noReset phase, count]
  simp only [Nat.sub_pos_iff_lt]

/-- A state of RUN whose counter is spent answers `P ‖ Q` in the step after it. -/
theorem runFor_finish {c : Config} {k : Nat} {b t : Block c} (ran : runFor k ⟨c, b⟩ = .next ⟨c, t⟩) (hp : t.phase = .run)
    (hc : U t.cnt = 0) (hh : t.host = b.host.drop k) (hr : b.NoReset (k + 1)) :
    runFor (k + 1) ⟨c, b⟩ = .next ⟨c, (t.complete .noError (product t.p t.q) (product t.p t.q)).tick⟩ := by
  have noReset : t.input.rst = false := by rw [Block.input, hh]; exact rst_drop hr
  rw [runFor_add 1 ran, runFor_succ 0 (step_finish hp noReset hc), runFor_zero]

/-- Settles O46: LOAD sets the counter to `N`; then the countdown, and FINISH at 0. -/
theorem runAlwaysFinishesWithoutError : Obligations.RunAlwaysFinishesWithoutError := by
  unfold Obligations.RunAlwaysFinishesWithoutError
  refine ⟨fun c s x y accepted => ⟨_, step_load accepted, rfl, Config.U_width c⟩,
    fun c s hp => ⟨fun k hk hr => runFor_selected hp hk hr, fun hr => ?_⟩⟩
  obtain ⟨t, ran, phase, count, host⟩ := runFor_countsDown hp le_rfl (hr.mono (Nat.le_succ _))
  exact ⟨_, runFor_finish ran phase (by omega) host hr, rfl, rfl⟩

/-! ### The machine and the function -/

/-- Multiply raises what the command MUL raises. -/
theorem raisedBy_of_multiply_error {c : Config} {x y : Int} {e : Err} (h : multiply x y c.n = .error e) :
    raisedBy c (.mul x y) = some e := by
  rcases lt_or_ge c.n 1 with hn | hn
  · rw [multiply_config (by omega)] at h
    cases h
    exact raisedBy_mul_config (by omega)
  · by_cases inside : inRange c.width x ∧ inRange c.width y
    · rw [multiply_ok hn inside.1 inside.2] at h
      cases h
    · have outside : ¬ inRange c.width x ∨ ¬ inRange c.width y := not_and_or.mp inside
      rw [multiply_range hn outside] at h
      cases h
      exact raisedBy_mul_range hn outside

/-- A command whose Multiply raises nothing is an accepted MUL that raises nothing. -/
theorem acceptingMul_of_multiply_ok {c : Config} {b : Block c} {x y : Int} {r : Int × Bits (c.width + c.width)}
    (accepting : b.Accepting) (command : b.command = .mul x y) (h : multiply x y c.n = .ok r) : b.AcceptingMul x y := by
  have width : 1 ≤ c.n := by
    by_contra hn
    rw [multiply_config (by omega)] at h
    cases h
  have inside : inRange c.width x ∧ inRange c.width y := by
    by_contra outside
    rw [multiply_range width (not_and_or.mp outside)] at h
    cases h
  exact ⟨accepting, command, width, inside.1, inside.2⟩

/-- After LOAD and `k` iterations the next step is ITER, or FINISH after `N` of them. -/
theorem runFor_mul_selected {c : Config} {b : Block c} {x y : Int} {k : Nat} (h : b.AcceptingMul x y) (hk : k ≤ c.width)
    (hr : b.NoReset (k + 2)) :
    ∃ t : Block c, runFor (k + 1) ⟨c, b⟩ = .next ⟨c, t⟩ ∧ t.selected = some (if k < c.width then .iter else .finish) := by
  have loaded : U (b.load x y).tick.cnt = c.width := Config.U_width c
  obtain ⟨t, ran, -, -, next⟩ := runFor_selected (b := (b.load x y).tick) rfl (hk.trans loaded.ge) (hr.of_tail rfl)
  exact ⟨t, (runFor_succ k (step_load h)).trans ran, loaded ▸ next⟩

/-- LOAD and `N` iterations leave the algorithm's last triple, a spent counter, and the algorithm's trace. -/
theorem runFor_mul_iterations {c : Config} {b : Block c} {x y : Int} (h : b.AcceptingMul x y) (hr : b.NoReset (c.width + 1)) :
    ∃ cnt, U cnt = 0 ∧
      runFor (c.width + 1) ⟨c, b⟩ = .next ⟨c, { (b.load x y).withTriple (boothRun x c.width (boothStart c.width y)) with
        cnt := cnt
        trace := if c.traceEn then b.trace ++ boothTrace x c.width 1 (boothStart c.width y) else b.trace
        host := b.host.drop (c.width + 1) }⟩ := by
  have loaded : U (b.load x y).tick.cnt = c.width := Config.U_width c
  have width : (c.width : Int) = c.n := Int.toNat_of_nonneg (by have := h.width; omega)
  have firstNumber : c.n - (U (b.load x y).tick.cnt : Int) + 1 = 1 := by rw [loaded, width, sub_self, zero_add]
  obtain ⟨cnt, count, ran⟩ := runFor_iter x h.width c.width (b.load x y).tick rfl rfl loaded.ge (hr.of_tail rfl)
  refine ⟨cnt, by omega, ?_⟩
  rw [runFor_succ _ (step_load h), ran, firstNumber, Block.tick_host, List.drop_tail]
  rfl

/-- The whole of a MUL: LOAD, `N` iterations and FINISH. -/
theorem runFor_mul {c : Config} {b : Block c} {x y : Int} {t : Triple c.width}
    (ht : boothRun x c.width (boothStart c.width y) = t) (h : b.AcceptingMul x y) (hr : b.NoReset (c.width + 2)) :
    ∃ cnt, runFor (c.width + 2) ⟨c, b⟩ = .next ⟨c, { b with
      p := t.p, q := t.q, qm1 := t.qm1, m := wrap c.width x, cnt := cnt, phase := .done,
      resErr := .noError, resVal := product t.p t.q, resBits := product t.p t.q,
      trace := if c.traceEn then b.trace ++ boothTrace x c.width 1 (boothStart c.width y) else b.trace,
      host := b.host.drop (c.width + 2) }⟩ := by
  subst ht
  obtain ⟨cnt, spent, ran⟩ := runFor_mul_iterations h (hr.mono (Nat.le_succ _))
  refine ⟨cnt, (runFor_finish ran rfl spent rfl hr).trans ?_⟩
  rw [Block.tick, Block.complete_host, List.tail_drop]
  rfl

/-- Settles O48: an error by what MUL raises; else LOAD, the countdown, FINISH, and the algorithm's triple and trace. -/
theorem machineAndFunctionAgree : Obligations.MachineAndFunctionAgree := by
  unfold Obligations.MachineAndFunctionAgree
  refine fun c s x y accepting command => ⟨Block.selected_accept accepting, fun e raises => ?_, fun pr bits answers hr => ?_⟩
  · rw [step_accepting accepting, command, exec_of_raisedBy (raisedBy_of_multiply_error raises), tickOutcome_next]
    rfl
  · have accepted := acceptingMul_of_multiply_ok accepting command answers
    rw [multiply_ok accepted.width accepted.multiplicand accepted.multiplier] at answers
    cases answers
    obtain ⟨cnt, ran⟩ := runFor_mul rfl accepted hr
    refine ⟨fun k hk => ?_, ?_, rfl, _, _, _, _, cnt, ran⟩
    · simpa [hk] using runFor_mul_selected accepted hk.le (hr.mono (show k + 2 ≤ c.width + 2 by omega))
    · simpa using runFor_mul_selected accepted le_rfl hr

end Sys2Proof.Machine
end

section
/-! SUPPORT. The sequencer and the trace (`42_sequencer_and_trace.md` R90 to R97): which step is taken, what a command leaves of
the previous response, and that ITER alone writes the trace, which nothing reads. -/

namespace Sys2Proof.Machine

/-! ### Which step is taken -/

theorem Block.selected_iter {c : Config} {b : Block c} (hr : b.input.rst = false) (hp : b.phase = .run) (hc : 0 < U b.cnt) :
    b.selected = some .iter := by
  rw [Block.selected_run hr hp, if_pos hc]

/-- Settles O4: the five rows by what each selects. -/
theorem stepFollowsSelectionTable : Obligations.StepFollowsSelectionTable := by
  unfold Obligations.StepFollowsSelectionTable
  refine fun c s => ⟨fun hr => ?_, fun hr hp hc => ?_, fun hr hp hc => ?_, fun hr hp hv => ?_, fun hr hp hv => ?_⟩
  · exact step_of_selected (Block.selected_reset hr)
  · exact step_of_selected (Block.selected_iter hr hp hc)
  · exact step_of_selected (Block.selected_finish hr hp hc)
  · exact step_of_selected (Block.selected_accept ⟨hp, hr, hv⟩)
  · exact step_of_noStep (Block.selected_noStep hr hp hv)

/-- The instruction that RUN selects leaves the host's schedule unread. -/
theorem exec_run_withHost {c : Config} (b : Block c) :
    ∃ t : Block c, ∀ l, exec (if 0 < U b.cnt then .iter else .finish) ⟨c, { b with host := l }⟩ =
      .next ⟨c, { t with host := l }⟩ := by
  split_ifs
  · exact ⟨((((b.setP b.p1).emit .pre).shift).emit .post).countDown, fun _ => rfl⟩
  · exact ⟨b.complete .noError (product b.p b.q) (product b.p b.q), fun _ => rfl⟩

/-- In RUN a step that is no reset reads nothing of what the host presents (R93). -/
theorem step_run_withHost {c : Config} {b : Block c} (hp : b.phase = .run) :
    ∃ t : Block c, ∀ l : List (HostInput c.w), (l.headD (HostInput.idle c.w)).rst = false →
      step ⟨c, { b with host := l }⟩ = .next ⟨c, { t with host := l.tail }⟩ := by
  obtain ⟨t, effect⟩ := exec_run_withHost b
  refine ⟨t, fun l hl => ?_⟩
  have selected : Block.selected { b with host := l } = some (if 0 < U b.cnt then .iter else .finish) :=
    Block.selected_run hl hp
  rw [step_of_selected selected, effect l, tickOutcome_next]
  rfl

/-- In RUN the same steps follow from two schedules that differ in the current entry only, if neither resets. -/
theorem step_run_congr {c : Config} {b : Block c} {l : List (HostInput c.w)} (hp : b.phase = .run) (hr : b.input.rst = false)
    (hl : (l.headD (HostInput.idle c.w)).rst = false) (rest : l.tail = b.host.tail) :
    step ⟨c, { b with host := l }⟩ = step ⟨c, b⟩ := by
  obtain ⟨t, stepped⟩ := step_run_withHost hp
  rw [stepped l hl, rest]
  exact (stepped b.host hr).symm

/-- Settles O8: in RUN the step sees `rst` only. -/
theorem commandPresentedInRunIsDropped : Obligations.CommandPresentedInRunIsDropped := by
  unfold Obligations.CommandPresentedInRunIsDropped
  refine fun c s h hp hr hh => ⟨?_, step_run_congr hp hr hh rfl⟩
  simp [Block.cmdReady, hp]

/-! ### NOP -/

theorem Block.command_nop {c : Config} {b : Block c} (h : b.input.cmdOp = 0) : b.command = .nop := by
  rw [Block.command, HostInput.word, commandWord, h]
  exact decodeCommand_nop c _ _

theorem exec_nop_eq (s : State) : exec .nop s = .next s := rfl

/-- An accepted NOP only lets the host's next entry come up (R92). -/
theorem step_nop {c : Config} {b : Block c} (h : b.Accepting) (op : b.input.cmdOp = 0) : step ⟨c, b⟩ = .next ⟨c, b.tick⟩ := by
  rw [step_accepting h, Block.command_nop op, exec_nop_eq, tickOutcome_next]

/-- Settles O10: NOP is the identity, accepted or not; in RUN the step sees `rst` only. -/
theorem nopChangesNothing : Obligations.NopChangesNothing := by
  unfold Obligations.NopChangesNothing
  exact ⟨fun c s => exec_nop_eq ⟨c, s⟩, fun c s accepting op => step_nop accepting op,
    fun c s a b hp => step_run_congr (b := s.presentInput (HostInput.idle c.w)) hp rfl rfl rfl⟩

/-! ### What a command leaves -/

/-- The instruction completes with one response whatever the registers and the trace hold, and does nothing else. -/
def Completes (c : Config) (i : Instr) : Prop :=
  ∃ (e : Err) (val bits : Bits (c.width + c.width)), ∀ (en : Bool) (b : Block (c.tracing en)),
    exec i ⟨c.tracing en, b⟩ = .next ⟨c.tracing en, b.complete e val bits⟩

/-- The instruction is LOAD of two operands whatever the registers and the trace hold. -/
def Loads (c : Config) (i : Instr) : Prop :=
  ∃ x y : Int, ∀ (en : Bool) (b : Block (c.tracing en)), exec i ⟨c.tracing en, b⟩ = .next ⟨c.tracing en, b.load x y⟩

theorem completes_enc (c : Config) (v : Int) : Completes c (.enc v) := by
  cases h : encodeBits v c.n with
  | error e => exact ⟨e, 0, 0, fun _ _ => exec_enc_error h⟩
  | ok str => exact ⟨.noError, 0, zext _ str, fun _ _ => exec_enc_ok h⟩

theorem completes_dec (c : Config) (len : Nat) (bits : Bits len) : Completes c (.dec len bits) := by
  cases h : decodeBits bits with
  | error e => exact ⟨e, 0, 0, fun _ _ => exec_dec_error h⟩
  | ok x => exact ⟨.noError, wrap _ x, 0, fun _ _ => exec_dec_ok h⟩

/-- What raises an error completes with that error (R106). -/
theorem completes_of_raisedBy {c : Config} {i : Instr} {e : Err} (h : raisedBy c i = some e) : Completes c i :=
  ⟨e, 0, 0, fun _ _ => exec_of_raisedBy h⟩

theorem completes_or_loads_mul (c : Config) (x y : Int) : Completes c (.mul x y) ∨ Loads c (.mul x y) := by
  cases h : raisedBy c (.mul x y) with
  | some e => exact .inl (completes_of_raisedBy h)
  | none => exact .inr ⟨x, y, fun _ _ => exec_mul_ok h⟩

/-- Accepting a command other than NOP completes an operation or loads one. -/
theorem Block.command_completes_or_loads {c : Config} {b : Block c} (op : b.input.cmdOp ≠ 0) :
    Completes c b.command ∨ Loads c b.command := by
  obtain h | h | h | h := twoBits_cases b.input.cmdOp
  · exact absurd h op
  · rw [Block.command_enc h]
    exact .inl (completes_enc c _)
  · rw [Block.command_dec h]
    exact .inl (completes_dec c _ _)
  · rw [Block.command_mul h]
    exact completes_or_loads_mul c _ _

/-- What the host sees after an operation has completed or been loaded does not depend on the previous response (R91). -/
theorem exec_response_congr {c : Config} {i : Instr} (h : Completes c i ∨ Loads c i) (b : Block c) (e : Err)
    (val bits : Bits (c.width + c.width)) :
    ∃ t u : Block c, exec i ⟨c, b⟩ = .next ⟨c, t⟩ ∧
      exec i ⟨c, { b with resErr := e, resVal := val, resBits := bits }⟩ = .next ⟨c, u⟩ ∧ t.response = u.response := by
  obtain ⟨e', val', bits', answers⟩ | ⟨x, y, answers⟩ := h
  · exact ⟨_, _, answers c.traceEn _, answers c.traceEn _, rfl⟩
  · exact ⟨_, _, answers c.traceEn _, answers c.traceEn _, rfl⟩

/-- Settles O6: the command by its code; the response of what completes or loads forgets the previous one. -/
theorem acceptPerformsPresentedCommand : Obligations.AcceptPerformsPresentedCommand := by
  unfold Obligations.AcceptPerformsPresentedCommand
  intro c s hp hr hv
  have accepting : s.Accepting := ⟨hp, hr, hv⟩
  refine ⟨step_of_selected (Block.selected_accept accepting), fun op => ?_, fun op => ?_, fun op => ?_, fun op => ?_,
    fun e raises => ?_, fun op e val bits => ?_⟩
  · rw [exec_accept, Block.command_nop op]
  · rw [exec_accept, Block.command_enc op]
  · rw [exec_accept, Block.command_dec op]
  · rw [exec_accept, Block.command_mul op]
  · rw [exec_accept]
    exact exec_of_raisedBy raises
  · obtain ⟨t, u, ht, hu, same⟩ := exec_response_congr (Block.command_completes_or_loads op) s e val bits
    have replaced : step ⟨c, { s with resErr := e, resVal := val, resBits := bits }⟩ = tickOutcome (exec s.command ⟨c, _⟩) :=
      step_accepting accepting
    exact ⟨t.tick, u.tick, by rw [step_accepting accepting, ht, tickOutcome_next], by rw [replaced, hu, tickOutcome_next], same⟩

/-- Settles O38: each step by what it writes; only what completes replaces the response. -/
theorem responseHoldsUntilReplaced : Obligations.ResponseHoldsUntilReplaced := by
  unfold Obligations.ResponseHoldsUntilReplaced
  refine fun c s hr => ⟨fun hp hc => ?_, fun hp hc => step_finish hp hr hc, fun hp idle => ?_, fun x y accepted => ?_,
    fun accepting completes => ?_⟩
  · rw [step_of_selected (Block.selected_iter hr hp hc), exec_iter_eq, tickOutcome_next]
    exact ⟨_, _, _, _, _, rfl⟩
  · cases hv : s.input.cmdValid with
    | false => exact step_of_noStep (Block.selected_noStep hr hp hv)
    | true => exact step_nop ⟨hp, hr, hv⟩ (idle.resolve_left (by simp [hv]))
  · exact ⟨_, _, _, _, _, step_load accepted⟩
  · have answers : Completes c s.command := by
      obtain ⟨v, h⟩ | ⟨len, bits, h⟩ | ⟨e, h⟩ := completes
      · rw [h]
        exact completes_enc c v
      · rw [h]
        exact completes_dec c len bits
      · exact completes_of_raisedBy h
    obtain ⟨e, val, bits, effect⟩ := answers
    refine ⟨e, val, bits, ?_⟩
    rw [step_accepting accepting]
    exact congrArg tickOutcome (effect c.traceEn s)

/-! ### The trace -/

/-- In this state the instruction neither reads nor writes the trace or `TRACE_EN`; nor does it move the host's schedule on. -/
def Silent {c : Config} (i : Instr) (s : Block c) : Prop :=
  ∃ t : Block c, t.host = s.host ∧ ∀ (en : Bool) (tr : List (TraceEvent c.width)),
    exec i ⟨c.tracing en, s.withTrace en tr⟩ = .next ⟨c.tracing en, t.withTrace en tr⟩

theorem Completes.silent {c : Config} {i : Instr} (h : Completes c i) (s : Block c) : Silent i s := by
  obtain ⟨e, val, bits, effect⟩ := h
  exact ⟨s.complete e val bits, rfl, fun en tr => effect en (s.withTrace en tr)⟩

theorem Loads.silent {c : Config} {i : Instr} (h : Loads c i) (s : Block c) : Silent i s := by
  obtain ⟨x, y, effect⟩ := h
  exact ⟨s.load x y, rfl, fun en tr => effect en (s.withTrace en tr)⟩

theorem silent_nop {c : Config} (s : Block c) : Silent .nop s := ⟨s, rfl, fun _ _ => rfl⟩

/-- ACCEPT is silent, as every command is. -/
theorem silent_accept {c : Config} (s : Block c) : Silent .accept s := by
  have command : Silent s.command s := by
    by_cases op : s.input.cmdOp = 0
    · rw [Block.command_nop op]
      exact silent_nop s
    · exact (Block.command_completes_or_loads op).elim (·.silent s) (·.silent s)
  obtain ⟨t, host, effect⟩ := command
  exact ⟨t, host, fun en tr => (exec_accept _).trans (effect en tr)⟩

/-- Every instruction but ITER is silent (R97). -/
theorem silent_of_ne_iter {c : Config} {i : Instr} (h : i ≠ .iter) (s : Block c) : Silent i s := by
  cases i with
  | iter => exact absurd rfl h
  | nop => exact silent_nop s
  | enc v => exact (completes_enc c v).silent s
  | dec len bits => exact (completes_dec c len bits).silent s
  | mul x y => exact (completes_or_loads_mul c x y).elim (·.silent s) (·.silent s)
  | accept => exact silent_accept s
  | holdZeros => exact ⟨s, rfl, fun _ _ => rfl⟩
  | holdOnes => exact ⟨s, rfl, fun _ _ => rfl⟩
  | add => exact ⟨s.setP s.sum, rfl, fun _ _ => rfl⟩
  | sub => exact ⟨s.setP s.difference, rfl, fun _ _ => rfl⟩
  | asr => exact ⟨s.shift, rfl, fun _ _ => rfl⟩
  | finish => exact ⟨s.complete .noError (product s.p s.q) (product s.p s.q), rfl, fun _ _ => rfl⟩
  | reset => exact ⟨s.clearControl.forgetDatapath, rfl, fun _ _ => rfl⟩

/-- No register depends on the trace or on `TRACE_EN` (R97). -/
theorem exec_withTrace {c : Config} {s t : Block c} {i : Instr} (en : Bool) (tr : List (TraceEvent c.width))
    (h : exec i ⟨c, s⟩ = .next ⟨c, t⟩) :
    ∃ tr', exec i ⟨c.tracing en, s.withTrace en tr⟩ = .next ⟨c.tracing en, t.withTrace en tr'⟩ := by
  by_cases hi : i = .iter
  · subst hi
    rw [exec_iter_eq] at h
    cases h
    exact ⟨_, exec_iter_eq (s.withTrace en tr)⟩
  · obtain ⟨u, -, effect⟩ := silent_of_ne_iter hi s
    have answer := h.symm.trans (effect c.traceEn s.trace)
    cases answer
    exact ⟨tr, effect en tr⟩

/-- Each iteration has two events (R97). -/
theorem boothTrace_length {n : Nat} (a : Int) (k : Nat) (i : Int) (t : Triple n) : (boothTrace a k i t).length = 2 * k := by
  induction k generalizing i t with
  | zero => rfl
  | succ k ih =>
    rw [boothTrace, List.length_append, ih, boothEvents, List.length_cons, List.length_singleton]
    omega

/-- Settles O41: ITER's two events; every other instruction is silent; a MUL's `N` iterations; no register sees the trace. -/
theorem traceHoldsTwoEventsAnIteration : Obligations.TraceHoldsTwoEventsAnIteration := by
  unfold Obligations.TraceHoldsTwoEventsAnIteration
  refine ⟨fun c s on => ?_, fun c s i quiet => ?_, fun c s x y accepted hr on => ?_, fun c s t i en tr => exec_withTrace en tr⟩
  · obtain ⟨p1, p, q, qm1, action, -, -, -, effect, -⟩ := iterActsShiftsAndCounts c s
    rw [if_pos on] at effect
    exact ⟨p1, p, q, qm1, action, effect⟩
  · by_cases hi : i = .iter
    · subst hi
      have off : c.traceEn = false := quiet.resolve_left (absurd rfl)
      rw [exec_iter_eq, Block.iter_trace, off]
      exact ⟨_, _, _, _, _, _, _, _, _, _, rfl⟩
    · obtain ⟨t, host, effect⟩ := silent_of_ne_iter hi s
      refine ⟨t.p, t.q, t.qm1, t.m, t.cnt, t.phase, t.resErr, t.resVal, t.resBits, t.draws, ?_⟩
      rw [← host]
      exact effect c.traceEn s.trace
  · obtain ⟨cnt, ran⟩ := runFor_mul rfl accepted hr
    rw [if_pos on] at ran
    exact ⟨_, _, _, _, cnt, _, _, boothTrace_length x c.width 1 _, ran⟩

end Sys2Proof.Machine
end

section
/-! SUPPORT. The errors (`60_exceptions.md`): what each command raises and when (R101, R103 to R105), what a command that raises
nothing answers, where a response's code comes from, and that the raising is the whole response (R106). -/

namespace Sys2Proof

theorem not_inRange_iff {n : Nat} {z : Int} : ¬ inRange n z ↔ z < -2 ^ (n - 1) ∨ 2 ^ (n - 1) - 1 < z := by
  rw [inRange, not_and_or, not_le, not_le]

/-- The most negative value is in range. -/
theorem inRange_mostNegative (n : Nat) : inRange n (-2 ^ (n - 1)) := by
  have half : (0 : Int) < 2 ^ (n - 1) := by positivity
  exact ⟨le_rfl, by omega⟩

namespace Machine

/-! ### What is raised -/

theorem raisedBy_enc_config {c : Config} {v : Int} (hn : c.n ≤ 0) : raisedBy c (.enc v) = some .config := if_pos hn

theorem raisedBy_enc_of_pos {c : Config} (v : Int) (hn : 1 ≤ c.n) :
    raisedBy c (.enc v) = if inRange c.width v then none else some .range := if_neg (by omega)

theorem raisedBy_enc_range_iff {c : Config} {v : Int} (hn : 1 ≤ c.n) :
    raisedBy c (.enc v) = some .range ↔ ¬ inRange c.width v := by
  rw [raisedBy_enc_of_pos v hn]
  split_ifs with inside <;> simp [inside]

theorem raisedBy_mul_range_iff {c : Config} {x y : Int} (hn : 1 ≤ c.n) :
    raisedBy c (.mul x y) = some .range ↔ ¬ inRange c.width x ∨ ¬ inRange c.width y := by
  refine ⟨fun raised => ?_, raisedBy_mul_range hn⟩
  by_contra inside
  obtain ⟨hx, hy⟩ := not_or.mp inside
  rw [raisedBy_mul_none hn (not_not.mp hx) (not_not.mp hy)] at raised
  cases raised

/-- With a positive width nothing raises CONFIG (R103). -/
theorem raisedBy_ne_config {c : Config} (hn : 1 ≤ c.n) (i : Instr) : raisedBy c i ≠ some .config := by
  cases i with
  | enc v =>
    rw [raisedBy_enc_of_pos v hn]
    split_ifs <;> simp
  | dec len bits =>
    rw [raisedBy]
    split_ifs <;> simp
  | mul x y =>
    rw [raisedBy, if_neg (by omega)]
    split_ifs <;> simp
  | nop | holdZeros | add | sub | holdOnes | reset | iter | asr | finish | accept => nofun

/-! ### What is answered when nothing is raised -/

theorem exec_enc_of_not_raised {c : Config} {v : Int} (h : raisedBy c (.enc v) = none) (b : Block c) :
    exec (.enc v) ⟨c, b⟩ = .next ⟨c, b.complete .noError 0 (zext _ (wrap c.width v))⟩ := by
  rw [raisedBy] at h
  split_ifs at h with hn inside
  exact exec_enc_ok (encodeBits_ok (by omega) inside)

theorem exec_dec_of_not_raised {c : Config} {len : Nat} {bits : Bits len} (h : raisedBy c (.dec len bits) = none)
    (b : Block c) : exec (.dec len bits) ⟨c, b⟩ = .next ⟨c, b.complete .noError (wrap _ (S bits)) 0⟩ := by
  rw [raisedBy] at h
  split_ifs at h with empty
  exact exec_dec_ok (decodeBits_ok (by omega) bits)

/-- An operation completes with an error exactly when it raises it, if it completes with none or does not complete when it raises
nothing. -/
theorem completes_with_error_iff {c : Config} {b : Block c} {i : Instr} {e : Err} (he : e ≠ .noError)
    (quiet : raisedBy c i = none →
      ∃ u : Block c, exec i ⟨c, b⟩ = .next ⟨c, u⟩ ∧ (u.phase = .done → u.resErr = .noError)) :
    (∃ t : Block c, exec i ⟨c, b⟩ = .next ⟨c, t⟩ ∧ t.phase = .done ∧ t.resErr = e) ↔ raisedBy c i = some e := by
  constructor
  · rintro ⟨t, effect, done, rfl⟩
    cases raised : raisedBy c i with
    | some e =>
      rw [exec_of_raisedBy raised] at effect
      cases effect
      rfl
    | none =>
      obtain ⟨u, effect', cleared⟩ := quiet raised
      cases effect.symm.trans effect'
      exact absurd (cleared done) he
  · exact fun raised => ⟨b.raise e, exec_of_raisedBy raised, rfl, rfl⟩

theorem exec_enc_range_iff {c : Config} (b : Block c) (v : Int) (hn : 1 ≤ c.n) :
    (∃ t : Block c, exec (.enc v) ⟨c, b⟩ = .next ⟨c, t⟩ ∧ t.phase = .done ∧ t.resErr = .range) ↔ ¬ inRange c.width v :=
  (completes_with_error_iff (e := .range) (by decide) fun quiet => ⟨_, exec_enc_of_not_raised quiet b, fun _ => rfl⟩).trans
    (raisedBy_enc_range_iff hn)

/-- A LOAD leaves RES_ERR as it was, and PHASE = RUN tells it from a completion. -/
theorem exec_mul_range_iff {c : Config} (b : Block c) (x y : Int) (hn : 1 ≤ c.n) :
    (∃ t : Block c, exec (.mul x y) ⟨c, b⟩ = .next ⟨c, t⟩ ∧ t.phase = .done ∧ t.resErr = .range) ↔
      ¬ inRange c.width x ∨ ¬ inRange c.width y :=
  (completes_with_error_iff (e := .range) (by decide) fun quiet => ⟨_, exec_mul_ok quiet, nofun⟩).trans
    (raisedBy_mul_range_iff hn)

/-- Settles O14: what ENC and MUL raise, by their checks; DEC of a string with digits and FINISH complete without an error. -/
theorem rangeRaisedExactlyOutOfRange : Obligations.RangeRaisedExactlyOutOfRange := by
  unfold Obligations.RangeRaisedExactlyOutOfRange
  intro c s x y hn
  have lowest : inRange c.width (-2 ^ (c.width - 1)) := inRange_mostNegative _
  refine ⟨?_, ?_, ?_, raisedBy_mul_none hn lowest lowest, fun bits => ?_, ⟨_, exec_finish_eq s, rfl⟩,
    ⟨_, exec_add_eq s, rfl⟩, ⟨_, exec_sub_eq s, rfl⟩⟩
  · rw [exec_enc_range_iff s x hn, not_inRange_iff]
  · rw [exec_mul_range_iff s x y hn, not_inRange_iff, not_inRange_iff]
  · rw [raisedBy_enc_of_pos _ hn, if_pos lowest]
  · exact ⟨_, exec_dec_ok (decodeBits_ok (Config.width_pos hn) bits), rfl⟩

/-! ### Where a response's code comes from -/

/-- An instruction other than ACCEPT leaves in RES_ERR what it raises, or no error, or what was there. -/
theorem exec_resErr {c : Config} (s : Block c) {i : Instr} (hi : i ≠ .accept) :
    ∃ t : Block c, exec i ⟨c, s⟩ = .next ⟨c, t⟩ ∧
      (raisedBy c i = some t.resErr ∨ t.resErr = .noError ∨ t.resErr = s.resErr) := by
  cases raised : raisedBy c i with
  | some e => exact ⟨s.raise e, exec_of_raisedBy raised, .inl rfl⟩
  | none =>
    cases i with
    | accept => exact absurd rfl hi
    | enc v => exact ⟨_, exec_enc_of_not_raised raised s, .inr (.inl rfl)⟩
    | dec len bits => exact ⟨_, exec_dec_of_not_raised raised s, .inr (.inl rfl)⟩
    | mul x y => exact ⟨_, exec_mul_ok raised, .inr (.inr rfl)⟩
    | finish => exact ⟨_, exec_finish_eq s, .inr (.inl rfl)⟩
    | reset => exact ⟨_, rfl, .inr (.inl rfl)⟩
    | nop | holdZeros | add | sub | holdOnes | iter | asr => exact ⟨_, rfl, .inr (.inr rfl)⟩

theorem Block.command_ne_accept {c : Config} (b : Block c) : b.command ≠ .accept := by
  obtain h | h | h | h := decodeCommand_cases c b.input.word <;> rw [Block.command, h] <;> nofun

/-- Every instruction does what one other than ACCEPT does: itself, or the command on the ports. -/
theorem exec_eq_of_ne_accept {c : Config} (s : Block c) (i : Instr) : ∃ j ≠ .accept, exec i ⟨c, s⟩ = exec j ⟨c, s⟩ := by
  by_cases hi : i = .accept
  · exact ⟨s.command, s.command_ne_accept, hi ▸ exec_accept _⟩
  · exact ⟨i, hi, rfl⟩

/-- With a positive width a CONFIG in RES_ERR was there before (R103). -/
theorem resErr_config_of_exec {c : Config} {s t : Block c} {i : Instr} (hn : 1 ≤ c.n) (effect : exec i ⟨c, s⟩ = .next ⟨c, t⟩)
    (config : t.resErr = .config) : s.resErr = .config := by
  obtain ⟨j, hj, same⟩ := exec_eq_of_ne_accept s i
  obtain ⟨u, effect', raised | cleared | kept⟩ := exec_resErr s hj <;> cases effect.symm.trans (same.trans effect')
  · exact absurd (config ▸ raised) (raisedBy_ne_config hn j)
  · cases config.symm.trans cleared
  · exact kept.symm.trans config

/-- Settles O15: each raising by the check that comes first; a CONFIG is never new. -/
theorem widthErrorsComeBeforeRange : Obligations.WidthErrorsComeBeforeRange := by
  unfold Obligations.WidthErrorsComeBeforeRange
  refine fun c s x y bits => ⟨fun hn => ⟨?_, ?_, ?_⟩, fun hn hx _ => ?_, fun hn i t => resErr_config_of_exec hn⟩
  · exact exec_of_raisedBy (raisedBy_enc_config hn)
  · exact exec_of_raisedBy (raisedBy_mul_config hn)
  · exact exec_dec_error (decodeBits_empty (Int.toNat_of_nonpos hn) bits)
  · exact exec_of_raisedBy (raisedBy_mul_range hn (.inl hx))

/-! ### The raising is the whole response -/

/-- Raising the same error again changes nothing. -/
theorem Block.raise_raise {c : Config} (b : Block c) (e : Err) : (b.raise e).raise e = b.raise e := rfl

/-- Settles O16: the raising does not look at the state, is idempotent, and ends in DONE; ENC and DEC complete anew. -/
theorem raisedErrorIsTheWholeResponse : Obligations.RaisedErrorIsTheWholeResponse := by
  unfold Obligations.RaisedErrorIsTheWholeResponse
  refine fun c s i e raised => ⟨s.raise e, rfl, exec_of_raisedBy raised, ?_, rfl, fun v quiet => ?_, fun len bits quiet => ?_⟩
  · rw [exec_of_raisedBy raised, Block.raise_raise]
  · exact ⟨_, exec_enc_of_not_raised quiet _, rfl⟩
  · exact ⟨_, exec_dec_of_not_raised quiet _, rfl⟩

end Machine

end Sys2Proof
end

section
/-! SUPPORT. Reset and hazards (`70_reset_and_hazards.md`): RESET (R120), how many steps each command takes (R129), the most
negative multiplicand at the machine's level (R123), and the width 1 (R127). -/

namespace Sys2Proof.Machine

/-! ### RESET -/

theorem exec_reset_eq {c : Config} (b : Block c) : exec .reset ⟨c, b⟩ = .next ⟨c, b.clearControl.forgetDatapath⟩ := rfl

/-- With `rst = 1` the step is RESET, whatever the phase and whatever is presented. -/
theorem step_reset {c : Config} {b : Block c} (hr : b.input.rst = true) :
    step ⟨c, b⟩ = .next ⟨c, b.clearControl.forgetDatapath.tick⟩ := by
  rw [step_of_selected (Block.selected_reset hr), exec_reset_eq, tickOutcome_next]

/-- Settles O1: RESET, executed by itself and as the step that `rst` selects; the datapath's values are free ones. -/
theorem resetClearsControlState : Obligations.ResetClearsControlState := by
  unfold Obligations.ResetClearsControlState
  exact fun c s => ⟨⟨_, _, _, _, _, _, exec_reset_eq s⟩, fun hr => ⟨_, _, _, _, _, _, step_reset hr⟩⟩

/-! ### How many steps a command takes -/

/-- LOAD and `k` of the iterations: the algorithm's triple after `k` of them, and a counter with the rest to go. -/
theorem runFor_mul_partial {c : Config} {b : Block c} {x y : Int} {k : Nat} (h : b.AcceptingMul x y) (hk : k ≤ c.width)
    (hr : b.NoReset (k + 1)) :
    ∃ cnt trace, U cnt = c.width - k ∧
      runFor (k + 1) ⟨c, b⟩ = .next ⟨c, { (b.load x y).withTriple (boothRun x k (boothStart c.width y)) with
        cnt := cnt, trace := trace, host := b.host.drop (k + 1) }⟩ := by
  have loaded : U (b.load x y).tick.cnt = c.width := Config.U_width c
  obtain ⟨cnt, count, ran⟩ := runFor_iter x h.width k (b.load x y).tick rfl rfl (hk.trans loaded.ge) (hr.of_tail rfl)
  rw [loaded] at count
  rw [Block.tick_host, List.drop_tail] at ran
  exact ⟨cnt, _, count, (runFor_succ k (step_load h)).trans ran⟩

/-- ENC, DEC and whatever raises an error complete at once. -/
theorem completes_of_enc_or_dec_or_raisedBy {c : Config} {i : Instr}
    (h : (∃ v, i = .enc v) ∨ (∃ len bits, i = .dec len bits) ∨ (∃ e, raisedBy c i = some e)) : Completes c i := by
  obtain ⟨v, rfl⟩ | ⟨len, bits, rfl⟩ | ⟨e, raised⟩ := h
  · exact completes_enc c v
  · exact completes_dec c len bits
  · exact completes_of_raisedBy raised

/-- The step that accepts a command which completes at once answers its response. -/
theorem step_completes {c : Config} {b : Block c} (h : b.Accepting) (completes : Completes c b.command) :
    ∃ e val bits, step ⟨c, b⟩ = .next ⟨c, (b.complete e val bits).tick⟩ := by
  obtain ⟨e, val, bits, effect⟩ := completes
  exact ⟨e, val, bits, (step_accepting h).trans (congrArg tickOutcome (effect c.traceEn b))⟩

/-- Settles O47: a MUL by `runFor_mul_partial` and, with FINISH, `runFor_mul`; every other command by its accepting step. -/
theorem mulTakesWidthPlusTwoSteps : Obligations.MulTakesWidthPlusTwoSteps := by
  unfold Obligations.MulTakesWidthPlusTwoSteps
  refine ⟨fun c s x y accepted => ⟨fun k hk hr => ?_, fun hr => ?_⟩, fun c s accepting => ⟨fun nop => ?_, fun answers => ?_⟩⟩
  · have multiplicand : S (wrap c.width x) = x := S_wrap (Config.width_pos accepted.width) accepted.multiplicand
    obtain ⟨cnt, trace, count, ran⟩ := runFor_mul_partial accepted hk hr
    exact ⟨_, _, _, wrap c.width x, cnt, trace, multiplicand, count, ran⟩
  · obtain ⟨cnt, ran⟩ := runFor_mul rfl accepted hr
    exact ⟨_, _, _, _, cnt, _, ran⟩
  · rw [step_accepting accepting, nop, exec_nop_eq, tickOutcome_next]
    rfl
  · obtain ⟨e, val, bits, stepped⟩ := step_completes accepting (completes_of_enc_or_dec_or_raisedBy answers)
    exact ⟨_, stepped, rfl⟩

/-! ### The most negative multiplicand -/

/-- A MUL answers the product of the integer its multiplicand acts as (R80, R123). -/
theorem runFor_mul_answers {c : Config} {b : Block c} {x y : Int} (h : b.AcceptingMul x y) (hr : b.NoReset (c.width + 2)) :
    ∃ t : Block c, runFor (c.width + 2) ⟨c, b⟩ = .next ⟨c, t⟩ ∧ t.rspValid = true ∧ t.rspErr = 0 ∧
      S t.rspVal = actingMultiplicand c.width x * y := by
  obtain ⟨cnt, ran⟩ := runFor_mul rfl h hr
  exact ⟨_, ran, rfl, rfl, S_product_boothRun (Config.width_pos h.width) h.multiplicand h.multiplier⟩

/-- Settles O52: the acting multiplicand is `2^(N-1)` for `-2^(N-1)`, and otherwise the multiplicand itself. -/
theorem mostNegativeMultiplicandNegatesProduct : Obligations.MostNegativeMultiplicandNegatesProduct := by
  unfold Obligations.MostNegativeMultiplicandNegatesProduct
  intro c s x y accepted hr
  obtain ⟨t, ran, valid, noError, answer⟩ := runFor_mul_answers accepted hr
  refine ⟨t, ran, valid, noError, fun isMin => ?_, fun notMin => ?_⟩
  · have value : S t.rspVal = 2 ^ (c.width - 1) * y := by rw [answer, isMin, actingMultiplicand_min]
    refine ⟨value, ?_, fun hy isTrue => ?_⟩
    · rw [value, isMin, neg_mul, neg_neg]
    · have notMin_or_zero := actingMultiplicand_mul_eq_iff.mp (answer.symm.trans isTrue)
      exact notMin_or_zero.elim (absurd isMin) hy
  · rw [answer, actingMultiplicand_of_ne notMin]

/-! ### The width 1 -/

/-- Settles O53: zero absorbs by R82's law, and `-1`, the most negative value of one bit, acts as 1; the codec's corners at
`N = 1`. -/
theorem widthOneResults : Obligations.WidthOneResults := by
  unfold Obligations.WidthOneResults
  have minusOne : inRange (1 : Int).toNat (-1) := by decide
  obtain ⟨zeroLaws, -⟩ := productSymmetryAndZeroLaws
  obtain ⟨byZero, ofZero, -⟩ := zeroLaws (-1) (-1) 1 le_rfl minusOne minusOne
  obtain ⟨zeroByZero, -, -⟩ := zeroLaws 0 0 1 le_rfl inRange_zero inRange_zero
  obtain ⟨encodeZero, encodeMinusOne, -, -, encodeOne, -⟩ := encodeBits_corners (n := 1) le_rfl
  exact ⟨multiply_eq le_rfl minusOne minusOne, byZero, ofZero, zeroByZero, multiply_range le_rfl (.inl (by decide)),
    encodeZero, encodeMinusOne, encodeOne, decodeBits_of_S_eq le_rfl (by decide), decodeBits_of_S_eq le_rfl (by decide)⟩

end Sys2Proof.Machine
end

section
/-! SUPPORT. Every instruction and every step has a next state with the parameters unchanged (`60_exceptions.md` section 3,
`00_scope.md` section 4); what a step outside RUN does, by what the host presents (R90 to R92); and what two runs have in common
when each step keeps it. -/

namespace Sys2Proof.Machine

/-! ### A next state, with the same parameters -/

theorem exec_next {c : Config} (b : Block c) (i : Instr) : ∃ t : Block c, exec i ⟨c, b⟩ = .next ⟨c, t⟩ := by
  obtain ⟨j, hj, same⟩ := exec_eq_of_ne_accept b i
  obtain ⟨t, effect, -⟩ := exec_resErr b hj
  exact ⟨t, same.trans effect⟩

theorem step_next {c : Config} (b : Block c) : ∃ t : Block c, step ⟨c, b⟩ = .next ⟨c, t⟩ := by
  cases h : b.selected with
  | none => exact ⟨b.tick, step_of_noStep h⟩
  | some i =>
    obtain ⟨t, effect⟩ := exec_next b i
    exact ⟨t.tick, by rw [step_of_selected h, effect, tickOutcome_next]⟩

/-! ### A step outside RUN -/

/-- What a step outside RUN can do to the block before the host's next entry comes up. -/
inductive WaitingUpdate (c : Config) : (Block c → Block c) → Prop where
  /-- No step, or an accepted NOP. -/
  | keep : WaitingUpdate c id
  /-- A command that completes at once, with an error or without. -/
  | complete (e : Err) (val bits : Bits (c.width + c.width)) : WaitingUpdate c (·.complete e val bits)
  /-- A MUL that raises nothing. -/
  | load (width : 1 ≤ c.n) (x y : Int) : WaitingUpdate c (·.load x y)
  /-- RESET. -/
  | reset : WaitingUpdate c (·.clearControl.forgetDatapath)

/-- A MUL that raises nothing has a positive width (R103). -/
theorem width_of_raisedBy_mul_none {c : Config} {x y : Int} (h : raisedBy c (.mul x y) = none) : 1 ≤ c.n := by
  by_contra hn
  rw [raisedBy_mul_config (by omega)] at h
  cases h

theorem Completes.waitingUpdate {c : Config} {i : Instr} (h : Completes c i) :
    ∃ f, WaitingUpdate c f ∧ ∀ b : Block c, exec i ⟨c, b⟩ = .next ⟨c, f b⟩ := by
  obtain ⟨e, val, bits, effect⟩ := h
  exact ⟨_, .complete e val bits, effect c.traceEn⟩

/-- A command does the same whatever the block holds that accepts it. -/
theorem exec_decodeCommand_waitingUpdate (c : Config) (word : Bits (2 + c.w + c.w)) :
    ∃ f, WaitingUpdate c f ∧ ∀ b : Block c, exec (decodeCommand c word) ⟨c, b⟩ = .next ⟨c, f b⟩ := by
  obtain h | h | h | h := decodeCommand_cases c word <;> rw [h]
  case inl => exact ⟨id, .keep, fun b => exec_nop_eq ⟨c, b⟩⟩
  case inr.inl => exact (completes_enc c _).waitingUpdate
  case inr.inr.inl => exact (completes_dec c _ _).waitingUpdate
  case inr.inr.inr =>
    cases raised : raisedBy c (.mul (S (commandA word)) (S (commandB word))) with
    | some e => exact (completes_of_raisedBy raised).waitingUpdate
    | none => exact ⟨_, .load (width_of_raisedBy_mul_none raised) _ _, fun _ => exec_mul_ok raised⟩

/-- Outside RUN the host's input alone decides what the step does. -/
theorem step_waiting {c : Config} (h : HostInput c.w) :
    ∃ f, WaitingUpdate c f ∧
      ∀ b : Block c, b.phase ≠ .run → b.input = h → step ⟨c, b⟩ = .next ⟨c, (f b).tick⟩ := by
  cases hr : h.rst with
  | true => exact ⟨_, .reset, fun b _ input => step_reset (input ▸ hr)⟩
  | false =>
    cases hv : h.cmdValid with
    | false => exact ⟨id, .keep, fun b hp input => step_of_noStep (Block.selected_noStep (input ▸ hr) hp (input ▸ hv))⟩
    | true =>
      obtain ⟨f, update, effect⟩ := exec_decodeCommand_waitingUpdate c h.word
      refine ⟨f, update, fun b hp input => ?_⟩
      rw [step_accepting ⟨hp, input ▸ hr, input ▸ hv⟩, Block.command, input, effect, tickOutcome_next]

/-! ### Runs -/

/-- What one step leaves as it is, no number of steps changes. -/
theorem runFor_of_fixed {s : State} (h : step s = .next s) (k : Nat) : runFor k s = .next s := by
  induction k with
  | zero => exact runFor_zero s
  | succ k ih => rw [runFor_succ k h, ih]

/-- A relation that matches each step of one block by a step of another matches their runs. -/
theorem runFor_simulation {c c' : Config} {R : Block c → Block c' → Prop}
    (sim : ∀ {s t : Block c} {u : Block c'}, R s u → step ⟨c, s⟩ = .next ⟨c, t⟩ →
      ∃ v : Block c', step ⟨c', u⟩ = .next ⟨c', v⟩ ∧ R t v)
    {s t : Block c} {u : Block c'} {k : Nat} (start : R s u) (ran : runFor k ⟨c, s⟩ = .next ⟨c, t⟩) :
    ∃ v : Block c', runFor k ⟨c', u⟩ = .next ⟨c', v⟩ ∧ R t v := by
  induction k generalizing s u with
  | zero =>
    cases ran
    exact ⟨u, rfl, start⟩
  | succ k ih =>
    obtain ⟨s', stepped⟩ := step_next s
    obtain ⟨u', stepped', related⟩ := sim start stepped
    rw [runFor_succ k stepped] at ran
    rw [runFor_succ k stepped']
    exact ih related ran

/-- Settles O9: `step_next` and `exec_next`, for the state's block. -/
theorem everyStepAnswersNextState : Obligations.EveryStepAnswersNextState := by
  unfold Obligations.EveryStepAnswersNextState
  refine ⟨fun ⟨c, b⟩ => ?_, fun i ⟨c, b⟩ => ?_⟩
  · obtain ⟨t, stepped⟩ := step_next b
    exact ⟨_, stepped⟩
  · obtain ⟨t, effect⟩ := exec_next b i
    exact ⟨_, effect⟩

/-- Settles O45: a step's next state keeps the parameters, by `step_next`. -/
theorem parametersNeverChange : Obligations.ParametersNeverChange := by
  unfold Obligations.ParametersNeverChange
  intro ⟨c, b⟩ t stepped
  obtain ⟨u, stepped'⟩ := step_next b
  cases stepped.symm.trans stepped'
  rfl

end Sys2Proof.Machine
end

section
/-! SUPPORT. What no run shows: the trace switch and the trace so far (R5, R97), and the datapath outside RUN (`10_state.md`
section 3, R21). -/

namespace Sys2Proof.Machine

/-! ### The trace -/

/-- The trace and its switch do not reach the selection. -/
theorem Block.selected_withTrace {c : Config} (b : Block c) (en : Bool) (tr : List (TraceEvent c.width)) :
    (b.withTrace en tr).selected = b.selected := rfl

/-- The second block is the first with another switch and another trace. -/
def AlikeButTrace {c : Config} (en : Bool) (s : Block c) (u : Block (c.tracing en)) : Prop := ∃ tr, u = s.withTrace en tr

theorem AlikeButTrace.step {c : Config} {en : Bool} {s t : Block c} {u : Block (c.tracing en)} (alike : AlikeButTrace en s u)
    (stepped : step ⟨c, s⟩ = .next ⟨c, t⟩) :
    ∃ v : Block (c.tracing en), step ⟨c.tracing en, u⟩ = .next ⟨c.tracing en, v⟩ ∧ AlikeButTrace en t v := by
  obtain ⟨tr, rfl⟩ := alike
  cases selected : s.selected with
  | none =>
    rw [step_of_noStep selected] at stepped
    cases stepped
    exact ⟨_, step_of_noStep ((s.selected_withTrace en tr).trans selected), tr, rfl⟩
  | some i =>
    obtain ⟨t', effect⟩ := exec_next s i
    obtain ⟨tr', effect'⟩ := exec_withTrace en tr effect
    rw [step_of_selected selected, effect, tickOutcome_next] at stepped
    cases stepped
    refine ⟨(t'.withTrace en tr').tick, ?_, tr', rfl⟩
    rw [step_of_selected ((s.selected_withTrace en tr).trans selected), effect', tickOutcome_next]

/-- Settles O40: each step keeps the two blocks alike but for the trace. -/
theorem traceIsInert : Obligations.TraceIsInert := by
  unfold Obligations.TraceIsInert
  intro c s t en tr k ran
  obtain ⟨_, ran', tr', rfl⟩ := runFor_simulation AlikeButTrace.step ⟨tr, rfl⟩ ran
  exact ⟨tr', ran'⟩

/-! ### The datapath outside RUN -/

/-- The blocks differ in the datapath registers at most, and in RUN not even there. -/
structure AlikeOutsideDatapath {c : Config} (s u : Block c) : Prop where
  outside : ∃ p q qm1 m cnt, u = { s with p := p, q := q, qm1 := qm1, m := m, cnt := cnt }
  inRun : s.phase = .run → u = s

theorem AlikeOutsideDatapath.refl {c : Config} (s : Block c) : AlikeOutsideDatapath s s :=
  ⟨⟨_, _, _, _, _, rfl⟩, fun _ => rfl⟩

/-- Outside RUN an update reads nothing of the datapath: blocks that are alike but for it stay so, and a LOAD makes them equal. -/
theorem WaitingUpdate.alike {c : Config} {f : Block c → Block c} (h : WaitingUpdate c f) {s u : Block c} (hp : s.phase ≠ .run)
    (alike : AlikeOutsideDatapath s u) : AlikeOutsideDatapath (f s).tick (f u).tick := by
  obtain ⟨p, q, qm1, m, cnt, rfl⟩ := alike.outside
  cases h with
  | keep => exact ⟨⟨p, q, qm1, m, cnt, rfl⟩, fun run => absurd run hp⟩
  | complete e val bits => exact ⟨⟨p, q, qm1, m, cnt, rfl⟩, nofun⟩
  | load width x y => exact .refl _
  | reset => exact .refl _

theorem AlikeOutsideDatapath.step {c : Config} {s t u : Block c} (alike : AlikeOutsideDatapath s u)
    (stepped : step ⟨c, s⟩ = .next ⟨c, t⟩) : ∃ v : Block c, step ⟨c, u⟩ = .next ⟨c, v⟩ ∧ AlikeOutsideDatapath t v := by
  by_cases run : s.phase = .run
  · rw [alike.inRun run]
    exact ⟨t, stepped, .refl t⟩
  · obtain ⟨f, update, effect⟩ := step_waiting s.input
    rw [effect s run rfl] at stepped
    cases stepped
    refine ⟨(f u).tick, ?_, update.alike run alike⟩
    obtain ⟨p, q, qm1, m, cnt, rfl⟩ := alike.outside
    exact effect _ run rfl

/-- What completes with one response answers the same whatever phase and response came before. -/
theorem Completes.exec_congr {c : Config} {i : Instr} (h : Completes c i) (b : Block c) (ph : Phase) (e : Err)
    (val bits : Bits (c.width + c.width)) :
    exec i ⟨c, { b with phase := ph, resErr := e, resVal := val, resBits := bits }⟩ = exec i ⟨c, b⟩ := by
  obtain ⟨e', val', bits', effect⟩ := h
  exact (effect c.traceEn _).trans (effect c.traceEn b).symm

/-- Settles O42: each step keeps the blocks alike, and LOAD writes the whole datapath; ENC and DEC complete anew. -/
theorem datapathOutsideRunIsNeverSeen : Obligations.DatapathOutsideRunIsNeverSeen := by
  unfold Obligations.DatapathOutsideRunIsNeverSeen
  refine ⟨fun c s t k p q m qm1 cnt hp ran => ?_, fun c s ph e val bits v => ?_, fun c s ph e val bits len str => ?_⟩
  · have start : AlikeOutsideDatapath s { s with p := p, q := q, qm1 := qm1, m := m, cnt := cnt } :=
      ⟨⟨p, q, qm1, m, cnt, rfl⟩, fun run => absurd run hp⟩
    obtain ⟨_, ran', ⟨p', q', qm1', m', cnt', rfl⟩, inRun⟩ := runFor_simulation AlikeOutsideDatapath.step start ran
    refine ⟨p', q', qm1', m', cnt', ran', fun run => ?_⟩
    have same := inRun run
    exact ⟨congrArg Block.p same, congrArg Block.q same, congrArg Block.qm1 same, congrArg Block.m same,
      congrArg Block.cnt same⟩
  · exact (completes_enc c v).exec_congr s ph e val bits
  · exact (completes_dec c len str).exec_congr s ph e val bits

end Sys2Proof.Machine
end

section
/-! SUPPORT. The counter's range while a Multiply runs (R15, R25), a reset in RUN (R121), and the state after reset (R22). -/

namespace Sys2Proof.Machine

/-! ### The counter -/

/-- Outside RUN only LOAD brings a Multiply about, with `CNT = N`. -/
theorem WaitingUpdate.counterInRange {c : Config} {f : Block c → Block c} (h : WaitingUpdate c f) {b : Block c}
    (hp : b.phase ≠ .run) : (f b).tick.CounterInRange := by
  cases h with
  | keep => exact fun run => absurd run hp
  | complete e val bits => exact nofun
  | load width x y => exact fun _ => ⟨width, (Config.U_width c).le⟩
  | reset => exact nofun

/-- Settles O43: RESET and FINISH leave RUN, ITER counts down from a counter that is not 0, and outside RUN only LOAD enters
it. -/
theorem everyStepKeepsCounterInRange : Obligations.EveryStepKeepsCounterInRange := by
  unfold Obligations.EveryStepKeepsCounterInRange
  intro c s t inv stepped
  by_cases run : s.phase = .run
  · cases hr : s.input.rst with
    | true =>
      rw [step_reset hr] at stepped
      cases stepped
      exact nofun
    | false =>
      rcases Nat.eq_zero_or_pos (U s.cnt) with spent | more
      · rw [step_finish run hr spent] at stepped
        cases stepped
        exact nofun
      · obtain ⟨u, stepped', -, count, -⟩ := step_iter run hr more
        cases stepped.symm.trans stepped'
        obtain ⟨width, bound⟩ := inv run
        exact fun _ => ⟨width, by omega⟩
  · obtain ⟨f, update, effect⟩ := step_waiting s.input
    rw [effect s run rfl] at stepped
    cases stepped
    exact update.counterInRange run

/-- Settles O44: the state after reset is in IDLE. -/
theorem counterInRangeAtReset : Obligations.CounterInRangeAtReset := by
  unfold Obligations.CounterInRangeAtReset
  exact nofun

/-! ### Reset -/

/-- Outside RUN, with nothing presented now or later, a step changes nothing. -/
theorem step_of_host_nil {c : Config} {b : Block c} (hp : b.phase ≠ .run) (hh : b.host = []) :
    step ⟨c, b⟩ = .next ⟨c, b⟩ := by
  have input : b.input = HostInput.idle c.w := by rw [Block.input, hh, List.headD_nil]
  have ticked : b.tick = b := by rw [Block.tick, hh, List.tail_nil, ← hh]
  rw [step_of_noStep (Block.selected_noStep (by rw [input]; rfl) hp (by rw [input]; rfl)), ticked]

/-- Settles O3: the step is RESET, and the block it leaves waits for ever. -/
theorem resetInRunAbandonsMultiply : Obligations.ResetInRunAbandonsMultiply := by
  unfold Obligations.ResetInRunAbandonsMultiply
  intro c s _ hr
  exact ⟨_, step_reset hr, rfl, rfl, rfl, fun nothing => runFor_of_fixed (step_of_host_nil nofun nothing)⟩

/-- Settles O2: the control and response registers RESET writes. -/
theorem afterResetReadyWithoutResponse : Obligations.AfterResetReadyWithoutResponse := by
  unfold Obligations.AfterResetReadyWithoutResponse
  exact ⟨⟨rfl, rfl, rfl, rfl, rfl, rfl⟩, fun c s => ⟨_, exec_reset_eq s, rfl, rfl, rfl, rfl, rfl, rfl⟩⟩

end Sys2Proof.Machine
end

section
/-! SUPPORT. What a step runs and writes: the instruction its selection word decodes to (R90, R91), the exact state an ACCEPT
leaves (R64, R65, R71, R92), and the access table (R23). -/

namespace Sys2Proof.Machine

/-! ### The decoded instruction -/

theorem decodeSelection_selectionWord_eq_ok {c : Config} {b : Block c} {i : Instr} :
    decodeSelection b.selectionWord = .ok i ↔ b.selected = some i := by
  rw [decodeSelection_selectionWord]
  cases b.selected <;> simp

/-- The only refusal a block's selection word meets is "no step". -/
theorem decodeSelection_selectionWord_eq_error {c : Config} {b : Block c} {e : DecodeReject} :
    decodeSelection b.selectionWord = .error e ↔ b.selected = none ∧ e = .noStep := by
  rw [decodeSelection_selectionWord]
  cases b.selected <;> simp [eq_comm]

/-- Settles O5: the selection word decodes to what R90 selects, and ACCEPT executes the command on the ports. -/
theorem stepRunsDecodedInstruction : Obligations.StepRunsDecodedInstruction := by
  unfold Obligations.StepRunsDecodedInstruction
  refine ⟨fun c s i decoded => ?_, fun c s refused => ?_, fun c s refused => ?_, fun c s => exec_accept _,
    fun c t => tickOutcome_next _⟩
  · exact step_of_selected (decodeSelection_selectionWord_eq_ok.mp decoded)
  · obtain ⟨noStep, -⟩ := decodeSelection_selectionWord_eq_error.mp refused
    exact step_of_noStep noStep
  · obtain ⟨-, unused⟩ := decodeSelection_selectionWord_eq_error.mp refused
    cases unused

/-! ### ACCEPT -/

/-- Settles O7: ACCEPT executes the command on the ports, which its checks let through. -/
theorem acceptCompletesEveryCommand : Obligations.AcceptCompletesEveryCommand := by
  unfold Obligations.AcceptCompletesEveryCommand
  refine fun c s => ⟨fun op => ?_, fun op hn inside => ?_, fun op hn => ?_, fun op hn hx hy => ?_⟩
  · rw [exec_accept, Block.command_nop op, exec_nop_eq]
  · rw [exec_accept, Block.command_enc op]
    exact exec_enc_ok (encodeBits_ok hn inside)
  · rw [exec_accept, Block.command_dec op]
    exact exec_dec_ok (decodeBits_ok (Config.width_pos hn) _)
  · rw [exec_accept, Block.command_mul op]
    exact exec_mul_ok (raisedBy_mul_none hn hx hy)

/-! ### The access table -/

theorem Completes.exec_eq {c : Config} {i : Instr} (h : Completes c i) (b : Block c) :
    ∃ e val bits, exec i ⟨c, b⟩ = .next ⟨c, b.complete e val bits⟩ := by
  obtain ⟨e, val, bits, effect⟩ := h
  exact ⟨e, val, bits, effect c.traceEn b⟩

/-- Settles O39: each row by the exact next state of its step. -/
theorem stepsWriteOnlyWhatTheTableSays : Obligations.StepsWriteOnlyWhatTheTableSays := by
  unfold Obligations.StepsWriteOnlyWhatTheTableSays
  intro c s
  refine ⟨?_, exec_nop_eq _, fun v => (completes_enc c v).exec_eq s, fun len str => (completes_dec c len str).exec_eq s,
    fun x y quiet => ?_, fun x y e raised => (completes_of_raisedBy raised).exec_eq s, ?_, ?_⟩
  · exact ⟨_, _, _, _, _, _, _, _, _, exec_reset_eq s⟩
  · exact ⟨_, _, _, _, _, exec_mul_ok quiet⟩
  · exact ⟨_, _, _, _, _, exec_iter_eq s⟩
  · exact ⟨_, _, _, exec_finish_eq s⟩

end Sys2Proof.Machine
end

section
/-! SUPPORT. The encoder and the decoders (`30_encoding.md` sections 2, 3 and 5, `opcode_table.json`). -/

namespace Sys2Proof

/-- Only ASR is decoded as another instruction. -/
theorem Instr.selectedAs_eq_self {i : Instr} (h : i ≠ .asr) : i.selectedAs = i := by
  cases i with
  | asr => exact absurd rfl h
  | nop | enc _ | dec _ _ | mul _ _ | holdZeros | add | sub | holdOnes | reset | iter | finish | accept => rfl

theorem decode_encode {c : Config} {i : Instr} (hw : c.WellFormed) (h : i.wellFormed c = true) :
    decode c (encode c i) = .ok i.selectedAs := by
  cases i with
  | nop => exact congrArg Except.ok (decodeCommand_nop c _ _)
  | enc v =>
    have kept : S (wrap c.w v) = v := S_wrap_of_fitsField h
    refine congrArg Except.ok ((decodeCommand_enc c _ _).trans ?_)
    rw [kept, Instr.selectedAs]
  | dec len bits =>
    obtain rfl : len = c.width := of_decide_eq_true h
    refine congrArg Except.ok ((decodeCommand_dec c _ _).trans ?_)
    rw [lowBits_zext (Int.toNat_le.mpr hw), Instr.selectedAs]
  | mul x y =>
    obtain ⟨fits_x, fits_y⟩ := Bool.and_eq_true_iff.mp h
    refine congrArg Except.ok ((Machine.decodeCommand_mul c _ _).trans ?_)
    rw [S_wrap_of_fitsField fits_x, S_wrap_of_fitsField fits_y, Instr.selectedAs]
  | holdZeros | add | sub | holdOnes | reset | iter | asr | finish | accept => rfl

/-- Settles O24: a command's operands survive their fields; the other words are fixed. -/
theorem decodeOfEncode : Obligations.DecodeOfEncode := by
  unfold Obligations.DecodeOfEncode
  exact fun c i hw h => ⟨decode_encode hw h, Instr.selectedAs_eq_self⟩

/-- Settles O28: the listed words, evaluated. -/
theorem tableWordsDecodeToTheirRows : Obligations.TableWordsDecodeToTheirRows := by
  unfold Obligations.TableWordsDecodeToTheirRows
  decide

end Sys2Proof
end
